-- ==== Sys2Proof/Word.lean ====
section
/-! DEFINITION. The value types of rule R8: unsigned values of fixed width, arithmetic modulo 2^width. -/

namespace Sys2Proof

/-- u4: a register number x or y, a row count N, a key code (R8, R12, R30). -/
abbrev Nibble := BitVec 4

/-- u8: a register, a memory byte, an immediate NN (R8, R14). -/
abbrev Byte := BitVec 8

/-- u12: the address immediate NNN (R8, R12). -/
abbrev Addr := BitVec 12

/-- u16: an instruction word, the pc, I, a return address (R8, R14). -/
abbrev Word := BitVec 16

end Sys2Proof
end

