-- ==== Sys2Proof/Config.lean ====
section
/-! DEFINITION. The parameters of rule R6 as one record, and the values the spec leaves free.
The parameters' nominal values stand in Machine/Nominal.lean, their derived quantities in Machine/Float.lean. -/

namespace Sys2Proof

/-- `vf_dest_order` (R6, R119; OPEN, D11): which write to VF wins when a flag-writing instruction's destination is VF. -/
inductive VfDestOrder where
  /-- the flag overwrites the result -/
  | flagLast
  /-- the result overwrites the flag -/
  | resultLast
  deriving DecidableEq, Repr, Inhabited

/-- `sys_0nnn` (R6, R74, R101; D3): the meaning of SYS NNN. -/
inductive Sys0nnn where
  | decodeFailure
  | nopAdvance
  deriving DecidableEq, Repr

/-- `font_mul_width` (R6, R142; D10): the width of the product in FX29. -/
inductive FontMulWidth where
  | w16
  | w8
  deriving DecidableEq, Repr

/-- `timer_format` (R6, R29; D12): the binary format the timers count in. -/
inductive TimerFormat where
  | binary64
  | binary32
  deriving DecidableEq, Repr

/-- What a rounding to an integer does at an exact tie (`dt_round_ties`: R6, R172; D13). The timer arithmetic
itself always rounds ties to even (R210, R211). -/
inductive RoundTies where
  | awayFromZero
  | toEven
  deriving DecidableEq, Repr

/-- The parameters of R6 that have more than one value. They are fixed for a machine: R37 makes them arguments of
the transition, and `State.params` carries them (log entry 1). -/
structure Params where
  /-- R119 -/
  vfDestOrder : VfDestOrder
  /-- R101 -/
  sys0nnn : Sys0nnn
  /-- R75: accept any low nibble in families 0x5 and 0x9 -/
  loose59 : Bool
  /-- R142 -/
  fontMulWidth : FontMulWidth
  /-- R29 -/
  timerFormat : TimerFormat
  /-- R172 -/
  dtRoundTies : RoundTies
  /-- R27: `none` is the unbounded stack -/
  stackCapacity : Option Nat
  /-- R60, R241: the bytes at 0x000 to 0x04F after a load -/
  font : Vector Byte 80
  /-- R210: cycles per second -/
  cycleHz : Rat
  /-- R210: timer units per second -/
  timerHz : Rat
  deriving DecidableEq, Repr

/-- The n-th random byte the machine draws (R131, R216): any byte, under no law (D21, U10). No body: nothing can be
proved about its value. -/
opaque Config.rnd : Nat → Byte

/-- The value of the OPEN parameter `vf_dest_order` in the reset state (R119, D11). No body. -/
opaque Config.vfDestOrder : VfDestOrder

/-- What FX07 reads from a delay timer whose nearest integer is outside 0 to 255: R172 gives such a timer no
result, because its invariant rules it out. No body (log entry 4). -/
opaque Config.dtReadOutOfRange : Rat → Byte

end Sys2Proof
end

