-- ==== Sys2Proof/Machine/Nominal.lean ====
section
/-! DEFINITION. The values R6 gives the parameters, among them the font table of 93_implementation_defined.md GK2. -/

namespace Sys2Proof

/-- The 16 glyphs of GK2, five bytes each (R60; D15: the spec's own table, not the source's). -/
def gk2Font : Vector Byte 80 :=
  (#v[0xF0, 0x90, 0x90, 0x90, 0xF0,  0x20, 0x60, 0x20, 0x20, 0x70,
      0xF0, 0x10, 0xF0, 0x80, 0xF0,  0xF0, 0x10, 0xF0, 0x10, 0xF0] : Vector Byte 20) ++
  (#v[0x90, 0x90, 0xF0, 0x10, 0x10,  0xF0, 0x80, 0xF0, 0x10, 0xF0,
      0xF0, 0x80, 0xF0, 0x90, 0xF0,  0xF0, 0x10, 0x20, 0x40, 0x40] : Vector Byte 20) ++
  (#v[0xF0, 0x90, 0xF0, 0x90, 0xF0,  0xF0, 0x90, 0xF0, 0x10, 0xF0,
      0xF0, 0x90, 0xF0, 0x90, 0x90,  0xE0, 0x90, 0xE0, 0x90, 0xE0] : Vector Byte 20) ++
  (#v[0xF0, 0x80, 0x80, 0x80, 0xF0,  0xE0, 0x90, 0x90, 0x90, 0xE0,
      0xF0, 0x80, 0xF0, 0x80, 0xF0,  0xF0, 0x80, 0xF0, 0x80, 0x80] : Vector Byte 20)

/-- The values of R6. `vf_dest_order` is OPEN there, so it is the opaque Config.vfDestOrder. -/
def Params.nominal : Params where
  vfDestOrder := Config.vfDestOrder
  sys0nnn := .decodeFailure
  loose59 := false
  fontMulWidth := .w16
  timerFormat := .binary64
  dtRoundTies := .awayFromZero
  stackCapacity := none
  font := gk2Font
  cycleHz := 600
  timerHz := 60

end Sys2Proof
end

