-- ==== Sys2Proof/Syntax.lean ====
section
/-! DEFINITION. The instructions: one constructor per row of spec/opcode_table.json, with the fields of rule R73. -/

namespace Sys2Proof

/-- The 35 instructions of R73, in the table's order. `x`, `y` are register numbers, `n` is N, `nn` is NN and `nnn` is NNN (R12). -/
inductive Instr where
  /-- `00E0` CLS (R160) -/
  | cls
  /-- `00EE` RET (R104) -/
  | ret
  /-- `0NNN` SYS NNN (R101) -/
  | sys (nnn : Addr)
  /-- `1NNN` JP NNN (R102) -/
  | jp (nnn : Addr)
  /-- `2NNN` CALL NNN (R103) -/
  | call (nnn : Addr)
  /-- `3XNN` SE Vx, NN (R105) -/
  | seImm (x : Nibble) (nn : Byte)
  /-- `4XNN` SNE Vx, NN (R106) -/
  | sneImm (x : Nibble) (nn : Byte)
  /-- `5XY0` SE Vx, Vy (R107) -/
  | seReg (x y : Nibble)
  /-- `6XNN` MVI Vx, NN (R120) -/
  | mvi (x : Nibble) (nn : Byte)
  /-- `7XNN` ADD Vx, NN (R121) -/
  | addImm (x : Nibble) (nn : Byte)
  /-- `8XY0` MOV Vx, Vy (R122) -/
  | mov (x y : Nibble)
  /-- `8XY1` OR Vx, Vy (R123) -/
  | or (x y : Nibble)
  /-- `8XY2` AND Vx, Vy (R124) -/
  | and (x y : Nibble)
  /-- `8XY3` XOR Vx, Vy (R125) -/
  | xor (x y : Nibble)
  /-- `8XY4` ADD Vx, Vy (R126) -/
  | addReg (x y : Nibble)
  /-- `8XY5` SUB Vx, Vy (R127) -/
  | sub (x y : Nibble)
  /-- `8XY6` SHR Vx; y is decoded and ignored (R128) -/
  | shr (x y : Nibble)
  /-- `8XY7` SUBN Vx, Vy (R129) -/
  | subn (x y : Nibble)
  /-- `8XYE` SHL Vx; y is decoded and ignored (R130) -/
  | shl (x y : Nibble)
  /-- `9XY0` SNE Vx, Vy (R108) -/
  | sneReg (x y : Nibble)
  /-- `ANNN` MVI I, NNN (R140) -/
  | mviI (nnn : Addr)
  /-- `BNNN` JP V0, NNN (R109) -/
  | jpV0 (nnn : Addr)
  /-- `CXNN` RND Vx, NN (R131) -/
  | rnd (x : Nibble) (nn : Byte)
  /-- `DXYN` DRW Vx, Vy, N (R161) -/
  | drw (x y n : Nibble)
  /-- `EX9E` SKP Vx (R170) -/
  | skp (x : Nibble)
  /-- `EXA1` SKNP Vx (R171) -/
  | sknp (x : Nibble)
  /-- `FX07` MOV Vx, DT (R176) -/
  | movVxDt (x : Nibble)
  /-- `FX0A` WAITKEY Vx (R179) -/
  | waitkey (x : Nibble)
  /-- `FX15` MOV DT, Vx (R177) -/
  | movDtVx (x : Nibble)
  /-- `FX18` MOV ST, Vx (R178) -/
  | movStVx (x : Nibble)
  /-- `FX1E` ADD I, Vx (R141) -/
  | addI (x : Nibble)
  /-- `FX29` FONT Vx (R142) -/
  | font (x : Nibble)
  /-- `FX33` BCD Vx (R143) -/
  | bcd (x : Nibble)
  /-- `FX55` STM Vx (R144) -/
  | stm (x : Nibble)
  /-- `FX65` LDM Vx (R145) -/
  | ldm (x : Nibble)
  deriving DecidableEq, Repr

end Sys2Proof
end

