-- ==== Sys2Proof/WellFormed.lean ====
section
/-! DEFINITION. Which terms of Instr stand for an instruction of rule R73. The field types already bound every
field; the one check left is R101's: SYS NNN has NNN ∉ {0x0E0, 0x0EE}, whose words are CLS and RET. -/

namespace Sys2Proof

def Instr.wellFormed : Instr → Bool
  | .sys nnn => nnn != 0x0E0#12 && nnn != 0x0EE#12
  | .cls | .ret | .jp _ | .call _ | .seImm _ _ | .sneImm _ _ | .seReg _ _ | .mvi _ _ | .addImm _ _
  | .mov _ _ | .or _ _ | .and _ _ | .xor _ _ | .addReg _ _ | .sub _ _ | .shr _ _ | .subn _ _ | .shl _ _
  | .sneReg _ _ | .mviI _ | .jpV0 _ | .rnd _ _ | .drw _ _ _ | .skp _ | .sknp _ | .movVxDt _ | .waitkey _
  | .movDtVx _ | .movStVx _ | .addI _ | .font _ | .bcd _ | .stm _ | .ldm _ => true

end Sys2Proof
end

