-- ==== Sys2Proof/Decode.lean ====
section
/-! DEFINITION. The decoder of rules R70 to R79, total on words and on bytes and rejecting by name, and the encoder
written from the same table (R73). -/

namespace Sys2Proof

/-- Why bytes are no instruction. The first five are `DecodeFailure(w)` of R79; each names the word. -/
inductive DecodeError where
  /-- `5XYn`, n ≠ 0, when `loose_5_9` is false (R75) -/
  | family5 (w : Word)
  /-- `8XYn`, n in 8 to D or F (R76) -/
  | family8 (w : Word)
  /-- `9XYn`, n ≠ 0, when `loose_5_9` is false (R75) -/
  | family9 (w : Word)
  /-- `EXnn`, nn not 9E or A1 (R77) -/
  | familyE (w : Word)
  /-- `FXnn`, nn none of the nine low bytes (R78) -/
  | familyF (w : Word)
  /-- fewer than two bytes: no word to decode (R70) -/
  | truncated
  deriving DecidableEq, Repr

/-- The fields of R12. -/
def wordFamily (w : Word) : Nibble := w.extractLsb' 12 4
def wordX (w : Word) : Nibble := w.extractLsb' 8 4
def wordY (w : Word) : Nibble := w.extractLsb' 4 4
def wordN (w : Word) : Nibble := w.extractLsb' 0 4
def wordNN (w : Word) : Byte := w.extractLsb' 0 8
def wordNNN (w : Word) : Addr := w.extractLsb' 0 12

/-- Family 0x0 decodes on the whole word (R74). -/
def decodeFamily0 (w : Word) : Instr :=
  if w = 0x00E0 then .cls else if w = 0x00EE then .ret else .sys (wordNNN w)

/-- Family 0x5 (R75). -/
def decodeFamily5 (loose : Bool) (w : Word) : Except DecodeError Instr :=
  if loose || wordN w == 0 then .ok (.seReg (wordX w) (wordY w)) else .error (.family5 w)

/-- Family 0x8 decodes on the low nibble (R76). -/
def decodeFamily8 (w : Word) : Except DecodeError Instr :=
  match (wordN w).toNat with
  | 0x0 => .ok (.mov (wordX w) (wordY w))
  | 0x1 => .ok (.or (wordX w) (wordY w))
  | 0x2 => .ok (.and (wordX w) (wordY w))
  | 0x3 => .ok (.xor (wordX w) (wordY w))
  | 0x4 => .ok (.addReg (wordX w) (wordY w))
  | 0x5 => .ok (.sub (wordX w) (wordY w))
  | 0x6 => .ok (.shr (wordX w) (wordY w))
  | 0x7 => .ok (.subn (wordX w) (wordY w))
  | 0xE => .ok (.shl (wordX w) (wordY w))
  | _ => .error (.family8 w)

/-- Family 0x9 (R75). -/
def decodeFamily9 (loose : Bool) (w : Word) : Except DecodeError Instr :=
  if loose || wordN w == 0 then .ok (.sneReg (wordX w) (wordY w)) else .error (.family9 w)

/-- Family 0xE decodes on the low byte (R77). -/
def decodeFamilyE (w : Word) : Except DecodeError Instr :=
  match (wordNN w).toNat with
  | 0x9E => .ok (.skp (wordX w))
  | 0xA1 => .ok (.sknp (wordX w))
  | _ => .error (.familyE w)

/-- Family 0xF decodes on the low byte (R78). -/
def decodeFamilyF (w : Word) : Except DecodeError Instr :=
  match (wordNN w).toNat with
  | 0x07 => .ok (.movVxDt (wordX w))
  | 0x0A => .ok (.waitkey (wordX w))
  | 0x15 => .ok (.movDtVx (wordX w))
  | 0x18 => .ok (.movStVx (wordX w))
  | 0x1E => .ok (.addI (wordX w))
  | 0x29 => .ok (.font (wordX w))
  | 0x33 => .ok (.bcd (wordX w))
  | 0x55 => .ok (.stm (wordX w))
  | 0x65 => .ok (.ldm (wordX w))
  | _ => .error (.familyF w)

/-- `Decode(w)` (R72, R79), given `loose_5_9`. Row 3 decodes to SYS for both values of `sys_0nnn`, whose meaning then
raises the decode failure or not (R74, R101). -/
def decodeWord (loose : Bool) (w : Word) : Except DecodeError Instr :=
  match (wordFamily w).toNat with
  | 0x0 => .ok (decodeFamily0 w)
  | 0x1 => .ok (.jp (wordNNN w))
  | 0x2 => .ok (.call (wordNNN w))
  | 0x3 => .ok (.seImm (wordX w) (wordNN w))
  | 0x4 => .ok (.sneImm (wordX w) (wordNN w))
  | 0x5 => decodeFamily5 loose w
  | 0x6 => .ok (.mvi (wordX w) (wordNN w))
  | 0x7 => .ok (.addImm (wordX w) (wordNN w))
  | 0x8 => decodeFamily8 w
  | 0x9 => decodeFamily9 loose w
  | 0xA => .ok (.mviI (wordNNN w))
  | 0xB => .ok (.jpV0 (wordNNN w))
  | 0xC => .ok (.rnd (wordX w) (wordNN w))
  | 0xD => .ok (.drw (wordX w) (wordY w) (wordN w))
  | 0xE => decodeFamilyE w
  | _ => decodeFamilyF w

/-- A word from its two bytes, the byte at the lower address first: big-endian (R52, R53). -/
def wordOfBytes (hi lo : Byte) : Word := hi ++ lo

/-- The decoder on bytes as memory holds them: the instruction and the bytes after it. Every instruction is two bytes (R70, R85). -/
def decodeBytes (loose : Bool) : List Byte → Except DecodeError (Instr × List Byte)
  | hi :: lo :: rest =>
    match decodeWord loose (wordOfBytes hi lo) with
    | .ok i => .ok (i, rest)
    | .error e => .error e
  | _ => .error .truncated

/-- `IsKeyWait(w)` (R82, D23). -/
def isKeyWait (w : Word) : Bool := wordFamily w == 0xF && wordNN w == 0x0A

/-- The four shapes of R70, from the family nibble down. -/
def formNNN (f : Nibble) (nnn : Addr) : Word := f ++ nnn
def formXNN (f x : Nibble) (nn : Byte) : Word := f ++ x ++ nn
def formXYN (f x y n : Nibble) : Word := f ++ x ++ y ++ n

/-- The word of an instruction, from the pattern column of R73. -/
def encodeWord : Instr → Word
  | .cls => 0x00E0
  | .ret => 0x00EE
  | .sys nnn => formNNN 0x0 nnn
  | .jp nnn => formNNN 0x1 nnn
  | .call nnn => formNNN 0x2 nnn
  | .seImm x nn => formXNN 0x3 x nn
  | .sneImm x nn => formXNN 0x4 x nn
  | .seReg x y => formXYN 0x5 x y 0x0
  | .mvi x nn => formXNN 0x6 x nn
  | .addImm x nn => formXNN 0x7 x nn
  | .mov x y => formXYN 0x8 x y 0x0
  | .or x y => formXYN 0x8 x y 0x1
  | .and x y => formXYN 0x8 x y 0x2
  | .xor x y => formXYN 0x8 x y 0x3
  | .addReg x y => formXYN 0x8 x y 0x4
  | .sub x y => formXYN 0x8 x y 0x5
  | .shr x y => formXYN 0x8 x y 0x6
  | .subn x y => formXYN 0x8 x y 0x7
  | .shl x y => formXYN 0x8 x y 0xE
  | .sneReg x y => formXYN 0x9 x y 0x0
  | .mviI nnn => formNNN 0xA nnn
  | .jpV0 nnn => formNNN 0xB nnn
  | .rnd x nn => formXNN 0xC x nn
  | .drw x y n => formXYN 0xD x y n
  | .skp x => formXNN 0xE x 0x9E
  | .sknp x => formXNN 0xE x 0xA1
  | .movVxDt x => formXNN 0xF x 0x07
  | .waitkey x => formXNN 0xF x 0x0A
  | .movDtVx x => formXNN 0xF x 0x15
  | .movStVx x => formXNN 0xF x 0x18
  | .addI x => formXNN 0xF x 0x1E
  | .font x => formXNN 0xF x 0x29
  | .bcd x => formXNN 0xF x 0x33
  | .stm x => formXNN 0xF x 0x55
  | .ldm x => formXNN 0xF x 0x65

def wordHi (w : Word) : Byte := w.extractLsb' 8 8
def wordLo (w : Word) : Byte := w.extractLsb' 0 8

/-- The bytes of an instruction in memory order (R52). -/
def encodeBytes (i : Instr) : List Byte := [wordHi (encodeWord i), wordLo (encodeWord i)]

/-- The word the host's number stands for: its low `nbits` bits, every bit above them 0. -/
def tableWord (nbits w : Nat) : Word := BitVec.ofNat 16 (w % 2 ^ nbits)

/-- For the host: the instruction this decoder reads, under the nominal `loose_5_9`, from the bytes of a word numbered
as spec/opcode_table.json numbers it. -/
def decodeTableWord (nbits w : Nat) : Option Instr :=
  match decodeBytes Params.nominal.loose59 [wordHi (tableWord nbits w), wordLo (tableWord nbits w)] with
  | .ok (i, _) => some i
  | .error _ => none

end Sys2Proof
end

