-- ==== Sys2Proof/Machine/Float.lean ====
section
/-! DEFINITION. The number arithmetic of the timers (R29, R172, R210, R211): exact rationals, rounded to `timer_format`
with round-to-nearest-even after each operation, and the conversion of a timer to a byte. -/

namespace Sys2Proof

/-- n / d rounded to the nearest natural number; `ties` decides an exact half. -/
def divNearest (ties : RoundTies) (n d : Nat) : Nat :=
  if 2 * (n % d) < d then n / d
  else if d < 2 * (n % d) then n / d + 1
  else match ties with
    | .awayFromZero => n / d + 1
    | .toEven => n / d + (n / d) % 2

/-- Significant bits of the format: 53 or 24. -/
def TimerFormat.precision : TimerFormat → Nat
  | .binary64 => 53
  | .binary32 => 24

/-- The exponent of the least normal number of the format. -/
def TimerFormat.minExp : TimerFormat → Int
  | .binary64 => -1022
  | .binary32 => -126

/-- The exponent of the greatest finite number of the format. -/
def TimerFormat.maxExp : TimerFormat → Int
  | .binary64 => 1023
  | .binary32 => 127

/-- ⌊log2 (n / d)⌋ for positive n and d. -/
def floorLog2 (n d : Nat) : Int :=
  let k : Int := (Nat.log2 n : Int) - (Nat.log2 d : Int)
  if d * 2 ^ k.toNat ≤ n * 2 ^ (-k).toNat then k else k - 1

/-- The exponent q of the spacing 2^q of the format's numbers at the magnitude n / d (gradual underflow below minExp). -/
def TimerFormat.spacing (f : TimerFormat) (n d : Nat) : Int :=
  max (floorLog2 n d) f.minExp - ((f.precision : Int) - 1)

/-- fl: the number of the format nearest to x, ties to even (R210, R211; D12). The exponent has no upper bound here;
`Params.legal` refuses a configuration whose intervals the format cannot hold. -/
def TimerFormat.round (f : TimerFormat) (x : Rat) : Rat :=
  let q := f.spacing x.num.natAbs x.den
  let m := divNearest .toEven (x.num.natAbs * 2 ^ (-q).toNat) (x.den * 2 ^ q.toNat)
  mkRat (x.num.sign * (m * 2 ^ q.toNat : Nat)) (2 ^ (-q).toNat)

/-- x is a number of the format (R29, D12): an integer of at most `precision` bits times a power of two that is not below the
least spacing of the format. Said without `round`, so that `round` can be held against it. The exponent has no upper bound
here either (log entry 10). -/
def TimerFormat.Representable (f : TimerFormat) (x : Rat) : Prop :=
  ∃ m q : Int, |m| < 2 ^ f.precision ∧ f.minExp - f.precision + 1 ≤ q ∧ x = m * 2 ^ q

/-- a - b without rounding, over numerators and denominators so that it evaluates. -/
def exactSub (a b : Rat) : Rat := mkRat (a.num * b.den - b.num * a.den) (a.den * b.den)

/-- a / b without rounding, for positive b; 0 otherwise. -/
def exactDiv (a b : Rat) : Rat := mkRat (a.num * b.den) (a.den * b.num.toNat)

/-- fl(a - b) in `timer_format` (R211). -/
def TimerFormat.sub (f : TimerFormat) (a b : Rat) : Rat := f.round (exactSub a b)

/-- `cycleInterval = fl(1 / cycle_hz)` (R210). -/
def Params.cycleInterval (p : Params) : Rat := p.timerFormat.round (exactDiv 1 p.cycleHz)

/-- `timerInterval = fl(1 / timer_hz)` (R210). -/
def Params.timerInterval (p : Params) : Rat := p.timerFormat.round (exactDiv 1 p.timerHz)

/-- `timer_delta = fl(cycleInterval / timerInterval)` (R210). -/
def Params.timerDelta (p : Params) : Rat :=
  p.timerFormat.round (exactDiv p.cycleInterval p.timerInterval)

/-- One decay of one timer (R211): a positive timer loses `timer_delta`, any other is left alone. -/
def Params.decay (p : Params) (t : Rat) : Rat :=
  if 0 < t then p.timerFormat.sub t p.timerDelta else t

/-- A legal configuration (R210, D13, U16): `0 < timer_delta < 0.5`, with both intervals within the format's range
(an interval beyond it is infinite in the format, and the quotient is then 0, infinite or no number: log entry 10). -/
abbrev Params.Legal (p : Params) : Prop :=
  floorLog2 p.cycleInterval.num.natAbs p.cycleInterval.den ≤ p.timerFormat.maxExp ∧
  floorLog2 p.timerInterval.num.natAbs p.timerInterval.den ≤ p.timerFormat.maxExp ∧
  0 < p.timerDelta ∧ p.timerDelta < mkRat 1 2

/-- The integer nearest to t; `ties` decides an exact half (R172). -/
def nearestInt (ties : RoundTies) (t : Rat) : Int :=
  t.num.sign * (divNearest ties t.num.natAbs t.den : Nat)

/-- RoundDT (R172): the nearest integer as a byte. Outside 0 to 255, where R172 states no result, the free value. -/
def Params.roundDT (p : Params) (t : Rat) : Byte :=
  let m := nearestInt p.dtRoundTies t
  if 0 ≤ m ∧ m ≤ 255 then BitVec.ofNat 8 m.toNat else Config.dtReadOutOfRange t

end Sys2Proof
end

