-- ==== Sys2Proof/Machine/State.lean ====
section
/-! DEFINITION. The machine state of rules R20 to R38 as plain data, the reasons a step or a host move can stop, and the state after reset. -/

namespace Sys2Proof.Machine

/-- The fault codes of R201. -/
inductive FaultCode where
  /-- code 1: the word matches none of the 35 rows, or is SYS under the default (R83, R101) -/
  | decodeFailure
  /-- code 2: the fetch at pc ≥ 4095 (R55) -/
  | fetchOutOfRange
  /-- code 3: an effective address above 4095 (R56, R139) -/
  | memoryOutOfRange
  /-- code 4: a CALL with a full bounded stack (R103) -/
  | stackOverflow
  deriving DecidableEq, Repr

/-- The fault record `{code, pc, info}` of R33. `info` is a word or an address (an unbounded integer, R56), so a natural number. -/
structure FaultRecord where
  code : FaultCode
  pc : Word
  info : Nat
  deriving DecidableEq, Repr

/-- The bytes of memory that differ from the reset image of an empty ROM, addresses strictly rising. -/
abbrev Memory := List Host.Cell

/-- The machine state (R20), and the model's own `params` and `draws`. -/
structure State where
  /-- `memory[0..4095]` (R20, R50) -/
  memory : Memory
  /-- V0 to VF (R21); V[15] is VF (R22) -/
  regs : Vector Byte 16
  /-- I (R23) -/
  index : Word
  /-- the address of the instruction being executed (R24) -/
  pc : Word
  /-- the return stack, oldest entry first (R26) -/
  stack : List Word
  /-- the 2048 pixels: `screen[p]` is bit p, and pixel (col, row) is bit row * 64 + col (R7, R28) -/
  screen : BitVec 2048
  /-- DT (R29) -/
  delayTimer : Rat
  /-- ST (R29) -/
  soundTimer : Rat
  /-- pressedKeys, oldest first, so the last is the most recently pressed (R30) -/
  keys : List Nibble
  /-- isAwaitingKeypress (R31) -/
  awaiting : Bool
  /-- needsRedraw (R32) -/
  redraw : Bool
  /-- the sticky fault record (R33) -/
  fault : Option FaultRecord
  /-- the model's own: the parameters of the transition (R6, R37), which no step changes (log entry 1) -/
  params : Params
  /-- the model's own: how many random bytes have been drawn, so that the next is Config.rnd of it (R131; log entry 3) -/
  draws : Nat
  deriving DecidableEq, Repr

/-- Reasons for Outcome.fault. There are none: every fault of this machine is a state with a fault record
(R80, R202), so a faulting cycle is a next state, and no step stops outside the spec's own states. -/
inductive Fault where
  deriving DecidableEq, Repr

/-- Reasons for Outcome.refused. No step of the machine is refused: the last three are host moves that have no move
(93_implementation_defined.md), after which the previous state stands. -/
inductive Refusal where
  /-- raised by exec's arm of an instruction without a meaning: no arm is one; safe -/
  | notModelled (mnemonic : String)
  /-- raised by `load` of more than 3584 bytes (R241, D16); safe: the spec has no move either -/
  | romTooLong (length : Nat)
  /-- raised by `key_down` or `key_up` of a code above 0xF (R215, D20); safe: the spec has no move either -/
  | keyCodeOutOfRange (code : Nat)
  /-- raised by `load` in a configuration with `timer_delta` outside (0, 0.5) (R210, U16); safe: the spec refuses it -/
  | illegalConfiguration
  deriving DecidableEq, Repr

/-- The state after `load` of an empty ROM in the nominal configuration (R38, R240, R241): what the machine is before
the host has placed a program (log entry 6). -/
def State.reset : State where
  memory := []
  regs := Vector.replicate 16 0
  index := 0
  pc := 0x200
  stack := []
  screen := 0
  delayTimer := 0
  soundTimer := 0
  keys := []
  awaiting := false
  redraw := false
  fault := none
  params := Params.nominal
  draws := 0

end Sys2Proof.Machine
end

