-- ==== Sys2Proof/Machine/Ops.lean ====
section
/-! DEFINITION. The named operations over the state: memory, registers, pc, stack, screen, flags of the core, taking a
fault, the timer decay, and the parts of the cycle around an instruction (R80). -/

namespace Sys2Proof.Machine

/-! ### Memory (R50 to R66) -/

/-- `MEM_SIZE` (R6). -/
def memSize : Nat := 4096

/-- What an unlisted address reads as: the reset image of an empty ROM, the font below 0x050 and 0 elsewhere (R241). -/
def resetByte (font : Vector Byte 80) (a : Nat) : Byte := if h : a < 80 then font[a] else 0

/-- The byte at an address. -/
def Memory.read (font : Vector Byte 80) : Memory → Nat → Byte
  | [], a => resetByte font a
  | (b, v) :: rest, a => if a = b then v else Memory.read font rest a

/-- A cell put before the rest, unless it holds what an unlisted address reads as. -/
def Memory.cons (font : Vector Byte 80) (a : Nat) (v : Byte) (rest : Memory) : Memory :=
  if v = resetByte font a then rest else (a, v) :: rest

/-- The byte at an address replaced, in canonical form. -/
def Memory.write (font : Vector Byte 80) : Memory → Nat → Byte → Memory
  | [], a, v => Memory.cons font a v []
  | (b, w) :: rest, a, v =>
    if a < b then Memory.cons font a v ((b, w) :: rest)
    else if a = b then Memory.cons font a v rest
    else (b, w) :: Memory.write font rest a v

/-- The canonical form: addresses strictly rising and within memory, no cell equal to the reset image. -/
abbrev Memory.wf (font : Vector Byte 80) (m : Memory) : Prop :=
  m.Pairwise (fun c d => c.1 < d.1) ∧ ∀ c ∈ m, c.1 < memSize ∧ c.2 ≠ resetByte font c.1

/-- `MemRead(addr, 1)` (R10) for an address already checked (R139). -/
def State.readByte (s : State) (a : Nat) : Byte := s.memory.read s.params.font a

/-- `MemWrite(addr, 1, v)` (R10) for an address already checked (R139); outside memory there is no byte to write. -/
def State.writeByte (s : State) (a : Nat) (v : Byte) : State :=
  { s with memory := if a < memSize then s.memory.write s.params.font a v else s.memory }

/-- Bytes written one by one in ascending address order (R58). -/
def State.writeBytes (s : State) (a : Nat) : List Byte → State
  | [] => s
  | v :: vs => (s.writeByte a v).writeBytes (a + 1) vs

/-! ### Registers (R21 to R25) -/

/-- `V[x]` (R9, R21). -/
def State.getV (s : State) (x : Nibble) : Byte := s.regs[x.toNat]

/-- `V[x] <- v` (R9, R21). -/
def State.setV (s : State) (x : Nibble) (v : Byte) : State := { s with regs := s.regs.set x.toNat v }

/-- VF is V[15] (R22). -/
def vf : Nibble := 15

/-- `I <- v` (R9, R23). -/
def State.setI (s : State) (v : Word) : State := { s with index := v }

/-- `pc <- target` (R9, R24). -/
def State.setPc (s : State) (target : Word) : State := { s with pc := target }

/-- `pc <- pc + 2`, modulo 65536 (R24). -/
def State.advance (s : State) : State := s.setPc (s.pc + 2)

/-! ### The return stack (R26, R27) -/

/-- A bounded stack that is full; an unbounded one never is (R27, R103). -/
def State.stackFull (s : State) : Bool :=
  match s.params.stackCapacity with
  | none => false
  | some capacity => s.stack.length == capacity

/-- `push(a)`: a becomes the last entry (R26). -/
def State.push (s : State) (a : Word) : State := { s with stack := s.stack ++ [a] }

/-- What `pop()` returns: the last entry, 0 when there is none (R26). -/
def State.popped (s : State) : Word := s.stack.getLast?.getD 0

/-- What `pop()` leaves: the stack without its last entry; the empty stack stays empty (R26). -/
def State.drop (s : State) : State := { s with stack := s.stack.dropLast }

/-! ### Screen, timers, keys' sub-state, the random draw -/

/-- The screen replaced and `redraw <- true`, as every drawing instruction does (R32). -/
def State.setScreen (s : State) (scr : BitVec 2048) : State := { s with screen := scr, redraw := true }

/-- `DT <- t` (R29). -/
def State.setDT (s : State) (t : Rat) : State := { s with delayTimer := t }

/-- `ST <- t` (R29). -/
def State.setST (s : State) (t : Rat) : State := { s with soundTimer := t }

/-- `awaiting <- b` (R31). -/
def State.setAwaiting (s : State) (b : Bool) : State := { s with awaiting := b }

/-- The `rnd` of the cycle, when an instruction uses one (R131, R216). -/
def State.rnd (s : State) : Byte := Config.rnd s.draws

/-- One draw used (R131). -/
def State.drawn (s : State) : State := { s with draws := s.draws + 1 }

/-! ### Faults (R11, R200 to R204) -/

/-- `raise F(info)`: only the fault record changes, and it names the pc of the cycle (R11, R80, R202). There is no
handler and no return from a fault: the machine is halted after it (R81, R204). -/
def State.raise (s : State) (code : FaultCode) (info : Nat) : State := { s with fault := some ⟨code, s.pc, info⟩ }

/-- The numeric codes of R201. -/
def FaultCode.number : FaultCode → Nat
  | .decodeFailure => 1
  | .fetchOutOfRange => 2
  | .memoryOutOfRange => 3
  | .stackOverflow => 4

/-- A state with a fault record is halted (R81). -/
def State.halted (s : State) : Bool := s.fault.isSome

/-! ### The cycle around an instruction (R80) -/

/-- `Fetch(pc)`: the two bytes at pc and pc + 1, without a wrap; none when the second lies outside memory (R53, R55). -/
def State.fetch (s : State) : Option Word :=
  if s.pc.toNat + 1 < memSize then some (wordOfBytes (s.readByte s.pc.toNat) (s.readByte (s.pc.toNat + 1))) else none

/-- The freeze check: awaiting a key at a word that is not the key-wait (R82). -/
def State.frozen (s : State) (w : Word) : Bool := s.awaiting && !isKeyWait w

/-- `TimerDecay` (R211). -/
def State.timerDecay (s : State) : State :=
  { s with delayTimer := s.params.decay s.delayTimer, soundTimer := s.params.decay s.soundTimer }

/-- The end of a cycle: the decay, unless the instruction raised a fault (R80, R202). -/
def State.endCycle (s : State) : State := if s.halted then s else s.timerDecay

end Sys2Proof.Machine
end

