-- ==== Sys2Proof/Machine/Flags.lean ====
section
/-! DEFINITION. Every flag value of the instruction set (R22, R126 to R130, R161), and the one way a result and a flag are
written together (R119). -/

namespace Sys2Proof.Machine

/-- 1 iff the 8-bit addition overflowed (R126). -/
def addFlag (a b : Byte) : Byte := if 255 < a.toNat + b.toNat then 1 else 0

/-- 0 iff a - b borrowed, that is, b > a (R127, R129). -/
def subFlag (a b : Byte) : Byte := if b.toNat ≤ a.toNat then 1 else 0

/-- Bit 0 before the shift (R128). -/
def shrFlag (v : Byte) : Byte := v &&& 0x01

/-- Bit 7 before the shift, kept in place: 0x00 or 0x80, not 0 or 1 (R130, U25). -/
def shlFlag (v : Byte) : Byte := v &&& 0x80

/-- 1 iff a pixel went from 1 to 0 (R161). -/
def hitFlag (hit : Bool) : Byte := if hit then 1 else 0

/-- `WriteRF(x, r, f)` (R119). -/
def State.writeRF (s : State) (x : Nibble) (r f : Byte) : State :=
  if x ≠ vf then (s.setV x r).setV vf f
  else match s.params.vfDestOrder with
    | .flagLast => s.setV vf f
    | .resultLast => s.setV vf r

end Sys2Proof.Machine
end

