-- ==== Sys2Proof/Machine/Operands.lean ====
section
/-! DEFINITION. The operand forms and shared parts of the instructions: the one addressing mode (R139), skips (R100),
BCD digits (R143), block moves (R144, R145), the font product (R142), sprites (R161 to R163), key tests (R170, R179). -/

namespace Sys2Proof.Machine

/-- `EA(k) = zext(I) + k`, an integer without a wrap (R139). -/
def State.ea (s : State) (k : Nat) : Nat := s.index.toNat + k

/-- The lowest out-of-range address among EA(0) to EA(n - 1), if there is one (R56, R139). -/
def State.lowestBadEA (s : State) (n : Nat) : Option Nat :=
  ((List.range n).map s.ea).find? (fun a => memSize ≤ a)

/-- An instruction that accesses EA(0) to EA(n - 1): all are checked first; with a bad one the instruction raises
MemoryOutOfRange and does nothing else (R139), otherwise `done` is its next state. -/
def State.accessing (s : State) (n : Nat) (done : State) : Host.Outcome State Fault Refusal :=
  match s.lowestBadEA n with
  | some a => .next (s.raise .memoryOutOfRange a)
  | none => .next done

/-- `Skip(cond)` (R100). -/
def State.skip (s : State) (cond : Bool) : State := s.setPc (if cond then s.pc + 4 else s.pc + 2)

/-- Hundreds, tens and ones of a byte (R143). -/
def bcdDigits (v : Byte) : List Byte :=
  [BitVec.ofNat 8 (v.toNat / 100), BitVec.ofNat 8 (v.toNat / 10 % 10), BitVec.ofNat 8 (v.toNat % 10)]

/-- V0 to Vx inclusive, in order (R144). -/
def State.regsUpTo (s : State) (x : Nibble) : List Byte := s.regs.toList.take (x.toNat + 1)

/-- `V[i] <- memory[EA(i)]` for i from 0 to x; the registers above x are unchanged (R145). -/
def State.loadUpTo (s : State) (x : Nibble) : State :=
  { s with regs := Vector.ofFn (fun i : Fin 16 => if i.val ≤ x.toNat then s.readByte (s.ea i.val) else s.regs[i.val]) }

/-- The product of FX29 in the width the parameter gives (R142). -/
def fontProduct (w : FontMulWidth) (v : Byte) : Word :=
  match w with
  | .w16 => 5 * v.setWidth 16
  | .w8 => (5 * v).setWidth 16

/-- `SpriteBit(b, col)`: bit 7 is column 0 (R163). -/
def spriteBit (b : Byte) (col : Nat) : Bool := b.getLsbD (7 - col)

/-- `PixelAddr(vx, vy, row, col)`, with the flat wrap (R162). -/
def pixelAddr (vx vy : Byte) (row col : Nat) : Nat := ((vy.toNat + row) * 64 + (vx.toNat + col)) % 2048

/-- A screen being drawn on, and whether a pixel has gone from 1 to 0 (R161). -/
structure Drawing where
  screen : BitVec 2048
  hit : Bool
  deriving DecidableEq, Repr

/-- Pixel p inverted; going from 1 to 0 is a hit (R161). -/
def Drawing.flip (d : Drawing) (p : Nat) : Drawing :=
  { screen := d.screen ^^^ BitVec.twoPow 2048 p, hit := d.hit || d.screen.getLsbD p }

/-- One sprite bit drawn (R161). -/
def Drawing.bit (vx vy b : Byte) (row : Nat) (d : Drawing) (col : Nat) : Drawing :=
  if spriteBit b col then d.flip (pixelAddr vx vy row col) else d

/-- The eight columns of one sprite row, left to right (R161). -/
def Drawing.row (vx vy : Byte) (sprite : Nat → Byte) (d : Drawing) (row : Nat) : Drawing :=
  (List.range 8).foldl (Drawing.bit vx vy (sprite row) row) d

/-- The n rows of a sprite, top to bottom (R161). -/
def Drawing.rows (vx vy : Byte) (sprite : Nat → Byte) (n : Nat) (d : Drawing) : Drawing :=
  (List.range n).foldl (Drawing.row vx vy sprite) d

/-- The sprite of DXYN at the start of the cycle: origin Vx, Vy and the n bytes from I (R161). -/
def State.drawing (s : State) (x y n : Nibble) : Drawing :=
  Drawing.rows (s.getV x) (s.getV y) (fun row => s.readByte (s.ea row)) n.toNat ⟨s.screen, false⟩

/-- `member(keys, v)`: the whole byte is compared, so no byte above 0xF is a member (R30, R170). -/
def State.keyHeld (s : State) (v : Byte) : Bool := s.keys.any (fun k => k.setWidth 8 == v)

/-- `last(keys)`, when a key is held (R30, R179). -/
def State.lastKey (s : State) : Option Nibble := s.keys.getLast?

/-- `real(v)`, exact in both formats (R177, R178). -/
def realOfByte (v : Byte) : Rat := (v.toNat : Rat)

end Sys2Proof.Machine
end

