-- ==== Sys2Proof/Machine/Alu.lean ====
section
/-! DEFINITION. Register loads, arithmetic, logic, shifts and random (41_alu.md). Byte arithmetic is modulo 256 (R132). -/

namespace Sys2Proof.Machine

/-- MVI Vx, NN (R120). -/
def execMvi (x : Nibble) (nn : Byte) (s : State) : Host.Outcome State Fault Refusal :=
  .next (s.setV x nn).advance

/-- ADD Vx, NN: no flag (R121). -/
def execAddImm (x : Nibble) (nn : Byte) (s : State) : Host.Outcome State Fault Refusal :=
  .next (s.setV x (s.getV x + nn)).advance

/-- MOV Vx, Vy (R122). -/
def execMov (x y : Nibble) (s : State) : Host.Outcome State Fault Refusal :=
  .next (s.setV x (s.getV y)).advance

/-- OR Vx, Vy: no flag (R123, D17). -/
def execOr (x y : Nibble) (s : State) : Host.Outcome State Fault Refusal :=
  .next (s.setV x (s.getV x ||| s.getV y)).advance

/-- AND Vx, Vy: no flag (R124, D17). -/
def execAnd (x y : Nibble) (s : State) : Host.Outcome State Fault Refusal :=
  .next (s.setV x (s.getV x &&& s.getV y)).advance

/-- XOR Vx, Vy: no flag (R125, D17). -/
def execXor (x y : Nibble) (s : State) : Host.Outcome State Fault Refusal :=
  .next (s.setV x (s.getV x ^^^ s.getV y)).advance

/-- ADD Vx, Vy (R126). -/
def execAddReg (x y : Nibble) (s : State) : Host.Outcome State Fault Refusal :=
  .next (s.writeRF x (s.getV x + s.getV y) (addFlag (s.getV x) (s.getV y))).advance

/-- SUB Vx, Vy (R127). -/
def execSub (x y : Nibble) (s : State) : Host.Outcome State Fault Refusal :=
  .next (s.writeRF x (s.getV x - s.getV y) (subFlag (s.getV x) (s.getV y))).advance

/-- SHR Vx; the y field is ignored (R128). -/
def execShr (x _y : Nibble) (s : State) : Host.Outcome State Fault Refusal :=
  .next (s.writeRF x (s.getV x >>> 1) (shrFlag (s.getV x))).advance

/-- SUBN Vx, Vy: Vy - Vx (R129). -/
def execSubn (x y : Nibble) (s : State) : Host.Outcome State Fault Refusal :=
  .next (s.writeRF x (s.getV y - s.getV x) (subFlag (s.getV y) (s.getV x))).advance

/-- SHL Vx; the y field is ignored (R130). -/
def execShl (x _y : Nibble) (s : State) : Host.Outcome State Fault Refusal :=
  .next (s.writeRF x (s.getV x <<< 1) (shlFlag (s.getV x))).advance

/-- RND Vx, NN: one draw (R131). -/
def execRnd (x : Nibble) (nn : Byte) (s : State) : Host.Outcome State Fault Refusal :=
  .next (s.drawn.setV x (s.rnd &&& nn)).advance

end Sys2Proof.Machine
end

