-- ==== Sys2Proof/Machine/Control.lean ====
section
/-! DEFINITION. Control flow: SYS, jumps, call and return, the four register skips (40_control_flow.md). -/

namespace Sys2Proof.Machine

/-- SYS NNN (R101). -/
def execSys (nnn : Addr) (s : State) : Host.Outcome State Fault Refusal :=
  match s.params.sys0nnn with
  | .decodeFailure => .next (s.raise .decodeFailure (encodeWord (.sys nnn)).toNat)
  | .nopAdvance => .next s.advance

/-- JP NNN (R102). -/
def execJp (nnn : Addr) (s : State) : Host.Outcome State Fault Refusal :=
  .next (s.setPc (nnn.setWidth 16))

/-- CALL NNN: the pushed value is the address of this CALL (R103). -/
def execCall (nnn : Addr) (s : State) : Host.Outcome State Fault Refusal :=
  if s.stackFull then .next (s.raise .stackOverflow (encodeWord (.call nnn)).toNat)
  else .next ((s.push s.pc).setPc (nnn.setWidth 16))

/-- RET: 2 after the popped address; the empty stack pops 0 (R104). -/
def execRet (s : State) : Host.Outcome State Fault Refusal :=
  .next (s.drop.setPc (s.popped + 2))

/-- SE Vx, NN (R105). -/
def execSeImm (x : Nibble) (nn : Byte) (s : State) : Host.Outcome State Fault Refusal :=
  .next (s.skip (s.getV x == nn))

/-- SNE Vx, NN (R106). -/
def execSneImm (x : Nibble) (nn : Byte) (s : State) : Host.Outcome State Fault Refusal :=
  .next (s.skip (s.getV x != nn))

/-- SE Vx, Vy (R107). -/
def execSeReg (x y : Nibble) (s : State) : Host.Outcome State Fault Refusal :=
  .next (s.skip (s.getV x == s.getV y))

/-- SNE Vx, Vy (R108). -/
def execSneReg (x y : Nibble) (s : State) : Host.Outcome State Fault Refusal :=
  .next (s.skip (s.getV x != s.getV y))

/-- JP V0, NNN: the register is always V0 and the sum is not masked to 12 bits (R109, D9). -/
def execJpV0 (nnn : Addr) (s : State) : Host.Outcome State Fault Refusal :=
  .next (s.setPc (nnn.setWidth 16 + (s.getV 0).setWidth 16))

end Sys2Proof.Machine
end

