-- ==== Sys2Proof/Machine/Display.lean ====
section
/-! DEFINITION. Screen clear and sprite draw (43_display.md). -/

namespace Sys2Proof.Machine

/-- CLS: sets `redraw` even on a clear screen (R160). -/
def execCls (s : State) : Host.Outcome State Fault Refusal :=
  .next (s.setScreen 0).advance

/-- DRW Vx, Vy, N: Vx, Vy and the sprite are read before VF is written; N = 0 reads nothing and still clears VF and
sets `redraw` (R161, C5). -/
def execDrw (x y n : Nibble) (s : State) : Host.Outcome State Fault Refusal :=
  s.accessing n.toNat
    ((s.setScreen (s.drawing x y n).screen).setV vf (hitFlag (s.drawing x y n).hit)).advance

end Sys2Proof.Machine
end

