-- ==== Sys2Proof/Machine/IndexMemory.lean ====
section
/-! DEFINITION. Index register, BCD and block register transfer (42_index_memory.md). -/

namespace Sys2Proof.Machine

/-- MVI I, NNN (R140). -/
def execMviI (nnn : Addr) (s : State) : Host.Outcome State Fault Refusal :=
  .next (s.setI (nnn.setWidth 16)).advance

/-- ADD I, Vx, modulo 65536 and without a flag (R141). -/
def execAddI (x : Nibble) (s : State) : Host.Outcome State Fault Refusal :=
  .next (s.setI (s.index + (s.getV x).setWidth 16)).advance

/-- FONT Vx: Vx is not masked to a nibble (R142). -/
def execFont (x : Nibble) (s : State) : Host.Outcome State Fault Refusal :=
  .next (s.setI (fontProduct s.params.fontMulWidth (s.getV x))).advance

/-- BCD Vx (R143). -/
def execBcd (x : Nibble) (s : State) : Host.Outcome State Fault Refusal :=
  s.accessing 3 (s.writeBytes (s.ea 0) (bcdDigits (s.getV x))).advance

/-- STM Vx: V0 to Vx stored from I on; I is not modified (R144). -/
def execStm (x : Nibble) (s : State) : Host.Outcome State Fault Refusal :=
  s.accessing (x.toNat + 1) (s.writeBytes (s.ea 0) (s.regsUpTo x)).advance

/-- LDM Vx: V0 to Vx loaded from I on; I is not modified (R145). -/
def execLdm (x : Nibble) (s : State) : Host.Outcome State Fault Refusal :=
  s.accessing (x.toNat + 1) (s.loadUpTo x).advance

end Sys2Proof.Machine
end

