-- ==== Sys2Proof/Machine/Keypad.lean ====
section
/-! DEFINITION. Key skips, timer moves and the key-wait (44_keypad_timers.md). -/

namespace Sys2Proof.Machine

/-- SKP Vx (R170). -/
def execSkp (x : Nibble) (s : State) : Host.Outcome State Fault Refusal :=
  .next (s.skip (s.keyHeld (s.getV x)))

/-- SKNP Vx (R171). -/
def execSknp (x : Nibble) (s : State) : Host.Outcome State Fault Refusal :=
  .next (s.skip (!s.keyHeld (s.getV x)))

/-- MOV Vx, DT: DT as it stands at the start of the cycle (R176). -/
def execMovVxDt (x : Nibble) (s : State) : Host.Outcome State Fault Refusal :=
  .next (s.setV x (s.params.roundDT s.delayTimer)).advance

/-- WAITKEY Vx: with no key held the pc stays, so the instruction repeats; otherwise the last-inserted key (R179). -/
def execWaitkey (x : Nibble) (s : State) : Host.Outcome State Fault Refusal :=
  match s.lastKey with
  | none => .next (s.setAwaiting true)
  | some k => .next ((s.setV x (k.setWidth 8)).setAwaiting false).advance

/-- MOV DT, Vx (R177). -/
def execMovDtVx (x : Nibble) (s : State) : Host.Outcome State Fault Refusal :=
  .next (s.setDT (realOfByte (s.getV x))).advance

/-- MOV ST, Vx (R178). -/
def execMovStVx (x : Nibble) (s : State) : Host.Outcome State Fault Refusal :=
  .next (s.setST (realOfByte (s.getV x))).advance

end Sys2Proof.Machine
end

