-- ==== Sys2Proof/Machine/Step.lean ====
section
/-! DEFINITION. One `Cycle` (R80): the halted check, the fetch, the freeze check, the decoder, the instruction, the
timer decay, in the order of R203. -/

namespace Sys2Proof.Machine

/-- What the cycle makes of the instruction's outcome. -/
def endOutcome : Host.Outcome State Fault Refusal → Host.Outcome State Fault Refusal
  | .next t => .next t.endCycle
  | .fault f => .fault f
  | .refused r => .refused r

/-- One tick (R80, R81, R82, R203). -/
def step (s : State) : Host.Outcome State Fault Refusal :=
  if s.halted then .next s
  else match s.fetch with
    | none => .next (s.raise .fetchOutOfRange s.pc.toNat)
    | some w =>
      if s.frozen w then .next s.timerDecay
      else match decodeWord s.params.loose59 w with
        | .error _ => .next (s.raise .decodeFailure w.toNat)
        | .ok i => endOutcome (exec i s)

/-- For the host: the state with an instruction's word, numbered as spec/opcode_table.json numbers it, stored big-endian
at the pc (R52, R53), where `step` fetches. -/
def State.withFetchWord (s : State) (nbits w : Nat) : State :=
  s.writeBytes s.pc.toNat [wordHi (tableWord nbits w), wordLo (tableWord nbits w)]

end Sys2Proof.Machine
end

