-- ==== Sys2Proof/Machine/HostPort.lean ====
section
/-! DEFINITION. The ports of the block other than `tick` (R7): load, key events, redraw acknowledge, and the outputs.
They are moves of the host between cycles (R215, R225); `step` makes none of them. -/

namespace Sys2Proof.Machine

/-- `ROM_BASE` (R6). -/
def romBase : Nat := 0x200

/-- The longest ROM that fits below 4096 (R241). -/
def maxRomLength : Nat := 3584

/-- The fresh state for a ROM (R38, R240, R241): every field of the reset state, the ROM's bytes from 0x200 on. The
configuration stays, and the draws used up so far stay used (they are no state of the spec's, log entry 3). -/
def State.fresh (s : State) (rom : List Byte) : State :=
  ({ State.reset with params := s.params, draws := s.draws } : State).writeBytes romBase rom

/-- `load(rom)` (R240, R241, R225): at any time, also when halted; a ROM that does not fit or an illegal configuration
has no move. -/
def load (rom : List Byte) (s : State) : Host.Outcome State Fault Refusal :=
  if ¬ s.params.Legal then .refused .illegalConfiguration
  else if maxRomLength < rom.length then .refused (.romTooLong rom.length)
  else .next (s.fresh rom)

/-- Key k inserted as the last element unless it is held (R215). -/
def State.press (s : State) (k : Nibble) : State :=
  { s with keys := if k ∈ s.keys then s.keys else s.keys ++ [k] }

/-- Key k removed, the others' order kept (R215). -/
def State.release (s : State) (k : Nibble) : State := { s with keys := s.keys.erase k }

/-- `key_down(k)` (R215). -/
def keyDown (k : Nat) (s : State) : Host.Outcome State Fault Refusal :=
  if k < 16 then .next (s.press (BitVec.ofNat 4 k)) else .refused (.keyCodeOutOfRange k)

/-- `key_up(k)` (R215). -/
def keyUp (k : Nat) (s : State) : Host.Outcome State Fault Refusal :=
  if k < 16 then .next (s.release (BitVec.ofNat 4 k)) else .refused (.keyCodeOutOfRange k)

/-- `redraw_ack` (R221). -/
def State.redrawAck (s : State) : State := { s with redraw := false }

/-- Pixel (col, row) of the screen (R28). -/
def State.pixel (s : State) (col row : Nat) : Bool := s.screen.getLsbD (row * 64 + col)

/-- The output `screen` as the render sink takes it: 2048 pixels, row-major (R7, R164, R220). -/
def State.screenOut (s : State) : List Bool := (List.range 2048).map s.screen.getLsbD

/-- The output `needs_redraw` (R7). -/
def State.needsRedraw (s : State) : Bool := s.redraw

/-- The output `should_play_sound` (R7, R212). -/
def State.shouldPlaySound (s : State) : Bool := 0 < s.soundTimer

/-- The output `fault` (R7, R202): none, or the numeric code of R201, the pc and the info. -/
def State.faultOut (s : State) : Option (Nat × Word × Nat) :=
  s.fault.map (fun r => (r.code.number, r.pc, r.info))

end Sys2Proof.Machine
end

