-- ==== Sys2Proof/Machine/Scheduler.lean ====
section
/-! DEFINITION. The cycle scheduler that drives the block (R226, R227, R244): the host's side of the interface, over the
machine's own step. -/

namespace Sys2Proof.Machine

/-- The states of R226. -/
inductive Phase where
  | unloaded
  | loadedStopped
  | loadedRunning
  deriving DecidableEq, Repr

/-- The scheduler and the machine it drives. -/
structure Scheduler where
  phase : Phase
  /-- whether the platform has a periodic timer; without one the calls `resume()` and `stop()` do nothing (R226) -/
  periodicTimer : Bool
  machine : State
  deriving DecidableEq, Repr

/-- What one tick of the scheduler sends to the sinks (R220, R222). -/
structure TickOutput where
  frame : Option (List Bool)
  play : Bool
  deriving DecidableEq, Repr

/-- `resume()`: only from Loaded-Stopped (R226). -/
def Scheduler.resume (c : Scheduler) : Scheduler :=
  if c.periodicTimer && c.phase == .loadedStopped then { c with phase := .loadedRunning } else c

/-- `stop()`: only from Loaded-Running; the whole machine state is retained (R226, R227). -/
def Scheduler.stop (c : Scheduler) : Scheduler :=
  if c.periodicTimer && c.phase == .loadedRunning then { c with phase := .loadedStopped } else c

/-- `start(romBytes)`: load, Loaded-Stopped, then Loaded-Running at once (R226, R242, R244), with or without a periodic timer
(log entry 16). A refused load has no move (R241). -/
def Scheduler.start (rom : List Byte) (c : Scheduler) : Host.Outcome Scheduler Fault Refusal :=
  match load rom c.machine with
  | .next s => .next { c with phase := .loadedRunning, machine := s }
  | .fault f => .fault f
  | .refused r => .refused r

/-- The part of `tick()` after the cycle: render and acknowledge, then the play signal (R220, R222, R226). -/
def afterCycle (s : State) : State × TickOutput :=
  (if s.needsRedraw then s.redrawAck else s,
   { frame := if s.needsRedraw then some s.screenOut else none, play := s.shouldPlaySound })

/-- `tick()`: nothing when Unloaded; otherwise one cycle and its outputs (R226, R244). -/
def Scheduler.tick (c : Scheduler) : Host.Outcome (Scheduler × TickOutput) Fault Refusal :=
  if c.phase == .unloaded then .next (c, { frame := none, play := false })
  else match step c.machine with
    | .next s => .next ({ c with machine := (afterCycle s).1 }, (afterCycle s).2)
    | .fault f => .fault f
    | .refused r => .refused r

end Sys2Proof.Machine
end

