-- ==== Sys2Proof/Safety.lean ====
section
/-! DEFINITION. What the statements speak in: the invariants of R35, a safe run, and what one state keeps of another. -/

namespace Sys2Proof.Machine

/-- A timer value the machine can hold (R29, R35): a number of the format, at least -timer_delta and at most 255. -/
abbrev TimerInRange (p : Params) (t : Rat) : Prop :=
  p.timerFormat.Representable t ∧ -p.timerDelta ≤ t ∧ t ≤ 255

/-- The stack within its capacity, if it has one (R27). -/
abbrev State.StackWithin (s : State) : Prop := ∀ c ∈ s.params.stackCapacity, s.stack.length ≤ c

/-- The invariants of R35 that the types do not already give: memory in canonical form, no key twice, timers in range,
in a legal configuration (R210), and the stack within a bounded capacity (R27). -/
structure State.Wf (s : State) : Prop where
  memory : s.memory.wf s.params.font
  keys : s.keys.Nodup
  delayTimer : TimerInRange s.params s.delayTimer
  soundTimer : TimerInRange s.params s.soundTimer
  params : s.params.Legal
  stack : s.StackWithin

/-- A safe run has not faulted: the machine is not halted (R81). -/
abbrev State.Safe (s : State) : Prop := s.fault = none

/-- A cycle that fetches w and is neither halted nor frozen, so that w is decoded (R80, R82). -/
structure State.Fetches (s : State) (w : Word) : Prop where
  safe : s.Safe
  fetched : s.fetch = some w
  thawed : s.awaiting = false ∨ isKeyWait w = true

/-- The bytes at the pc, lying in memory, decode to i, and the cycle is neither halted nor frozen: what `step` needs to run i (R80). -/
structure State.Runs (s : State) (i : Instr) : Prop where
  safe : s.Safe
  inMemory : s.pc.toNat + 1 < memSize
  decoded : ∃ rest, decodeBytes s.params.loose59 (s.readByte s.pc.toNat :: s.readByte (s.pc.toNat + 1) :: rest) = .ok (i, rest)
  thawed : s.awaiting = false ∨ ∃ x, i = .waitkey x

/-- How many bytes from I on an instruction accesses (R51). -/
def bytesAccessed : Instr → Nat
  | .drw _ _ n => n.toNat
  | .bcd _ => 3
  | .stm x | .ldm x => x.toNat + 1
  | .cls | .ret | .sys _ | .jp _ | .call _ | .seImm _ _ | .sneImm _ _ | .seReg _ _ | .mvi _ _ | .addImm _ _
  | .mov _ _ | .or _ _ | .and _ _ | .xor _ _ | .addReg _ _ | .sub _ _ | .shr _ _ | .subn _ _ | .shl _ _
  | .sneReg _ _ | .mviI _ | .jpV0 _ | .rnd _ _ | .skp _ | .sknp _ | .movVxDt _ | .waitkey _ | .movDtVx _
  | .movStVx _ | .addI _ | .font _ => 0

/-- The registers an instruction may write: its destination, and VF where R22 lists it as a flag writer. -/
def regsWritten : Instr → List Nibble
  | .mvi x _ | .addImm x _ | .mov x _ | .or x _ | .and x _ | .xor x _ | .rnd x _ | .movVxDt x | .waitkey x => [x]
  | .addReg x _ | .sub x _ | .shr x _ | .subn x _ | .shl x _ => [x, 15]
  | .drw _ _ _ => [15]
  | .ldm x => (List.range (x.toNat + 1)).map (BitVec.ofNat 4)
  | .cls | .ret | .sys _ | .jp _ | .call _ | .seImm _ _ | .sneImm _ _ | .seReg _ _ | .sneReg _ _ | .mviI _
  | .jpV0 _ | .skp _ | .sknp _ | .movDtVx _ | .movStVx _ | .addI _ | .font _ | .bcd _ | .stm _ => []

/-- The instruction that a step of s decodes at its pc. -/
def State.current (s : State) : Option Instr :=
  match s.fetch with
  | none => none
  | some w => match decodeWord s.params.loose59 w with
    | .ok i => some i
    | .error _ => none

/-- What an instruction may change besides the pc. Everything not named stays as it was. -/
structure Touches where
  /-- registers -/
  regs : List Nibble := []
  /-- the first byte and the number of bytes stored to -/
  bytes : Nat × Nat := (0, 0)
  index : Bool := false
  stack : Bool := false
  /-- the screen and the redraw flag -/
  display : Bool := false
  delayTimer : Bool := false
  soundTimer : Bool := false
  awaiting : Bool := false
  fault : Bool := false
  draws : Bool := false

/-- The frame: t keeps everything of s but the pc and what `w` names. The key set and the parameters are always kept
(R30, R37), and memory is spoken of through the read of one byte. -/
structure State.Frame (s t : State) (w : Touches) : Prop where
  regs : ∀ z, z ∉ w.regs → t.getV z = s.getV z
  memory : ∀ a, ¬ (w.bytes.1 ≤ a ∧ a < w.bytes.1 + w.bytes.2) → t.readByte a = s.readByte a
  index : w.index = false → t.index = s.index
  stack : w.stack = false → t.stack = s.stack
  screen : w.display = false → t.screen = s.screen
  redraw : w.display = false → t.redraw = s.redraw
  delayTimer : w.delayTimer = false → t.delayTimer = s.delayTimer
  soundTimer : w.soundTimer = false → t.soundTimer = s.soundTimer
  awaiting : w.awaiting = false → t.awaiting = s.awaiting
  fault : w.fault = false → t.fault = s.fault
  draws : w.draws = false → t.draws = s.draws
  keys : t.keys = s.keys
  params : t.params = s.params

/-- What WriteRF leaves for a result r and a flag f (R119): both in their registers, or, when the destination is VF,
the one that `vf_dest_order` lets win. -/
structure State.ResultAndFlag (s t : State) (x : Nibble) (r f : Byte) : Prop where
  apart : x ≠ 15 → t.getV x = r ∧ t.getV 15 = f
  same : x = 15 → t.getV 15 = match s.params.vfDestOrder with | .flagLast => f | .resultLast => r

/-- The pc after a skip (R100). -/
def State.skipTarget (s : State) (cond : Prop) [Decidable cond] : Word := if cond then s.pc + 4 else s.pc + 2

/-- Every one of the n bytes from I on lies in memory (R139); nothing is accessed when n is 0. -/
abbrev State.InRange (s : State) (n : Nat) : Prop := n = 0 ∨ s.index.toNat + n ≤ memSize

/-- A word raises no decode failure: `Decode(w)` of R79, with `sys_0nnn` counted as R79 counts it. -/
def wordDecodes (sys : Sys0nnn) (loose : Bool) (w : Word) : Bool :=
  match decodeWord loose w with
  | .ok (.sys _) => sys == .nopAdvance
  | .ok _ => true
  | .error _ => false

/-- How many of the 65536 words raise no decode failure. -/
def decodedWords (sys : Sys0nnn) (loose : Bool) : Nat :=
  (List.range 65536).countP (fun n => wordDecodes sys loose (BitVec.ofNat 16 n))

end Sys2Proof.Machine
end

