-- ==== Sys2Proof/Certificates/Slice0/Obligations.lean ====
section
/-! DEFINITION. The statements for the provers, from the numbered rules of spec/. Each docstring names the rule. Statements
about an instruction give the decoding of its pattern, the next state `exec` answers, and the frame (what it leaves unchanged). -/

open Sys2Proof Sys2Proof.Machine

/-! ### Encoding (30_encoding.md) -/

/-- R70, R73: decoding the word of a well-formed instruction gives it back, every field included. -/
def Obligations.EncodeThenDecode : Prop :=
  ∀ (loose : Bool) (i : Instr), i.wellFormed = true → decodeWord loose (encodeWord i) = .ok i

/-- R73, R79: a word that decodes strictly is the word of a well-formed instruction, so no two words share a meaning. -/
def Obligations.DecodeThenEncode : Prop :=
  ∀ (w : Word) (i : Instr), decodeWord false w = .ok i → encodeWord i = w ∧ i.wellFormed = true

/-- R74: family 0x0 decodes on the whole word. -/
def Obligations.FamilyZeroDecodesWholeWord : Prop :=
  ∀ (loose : Bool) (nnn : Addr), decodeWord loose (formNNN 0x0 nnn) =
    .ok (if nnn = 0x0E0 then .cls else if nnn = 0x0EE then .ret else .sys nnn)

/-- R75: a non-zero low nibble in families 0x5 and 0x9. -/
def Obligations.LowNibbleOfFamilies5And9 : Prop :=
  ∀ (s : State) (x y n : Nibble), n ≠ 0 →
    (s.Fetches (formXYN 0x5 x y n) →
      (s.params.loose59 = false → step s = .next (s.raise .decodeFailure (formXYN 0x5 x y n).toNat)) ∧
      (s.params.loose59 = true → step s = endOutcome (exec (.seReg x y) s))) ∧
    (s.Fetches (formXYN 0x9 x y n) →
      (s.params.loose59 = false → step s = .next (s.raise .decodeFailure (formXYN 0x9 x y n).toNat)) ∧
      (s.params.loose59 = true → step s = endOutcome (exec (.sneReg x y) s)))

/-- R76, R77, R78: the undefined low nibbles of family 0x8 and low bytes of families 0xE and 0xF raise DecodeFailure. -/
def Obligations.UndefinedWordsFail : Prop :=
  ∀ (s : State) (w : Word), s.Fetches w →
    (wordFamily w = 0x8 ∧ wordN w ∈ ([0x8, 0x9, 0xA, 0xB, 0xC, 0xD, 0xF] : List Nibble)) ∨
    (wordFamily w = 0xE ∧ wordNN w ∉ ([0x9E, 0xA1] : List Byte)) ∨
    (wordFamily w = 0xF ∧ wordNN w ∉ ([0x07, 0x0A, 0x15, 0x18, 0x1E, 0x29, 0x33, 0x55, 0x65] : List Byte)) →
    step s = .next (s.raise .decodeFailure w.toNat)

/-- R79, the first count: with the defaults 43954 of the 65536 words decode. -/
def Obligations.DefaultDecodeCount : Prop :=
  decodedWords .decodeFailure false = 43954

/-- Words written out from the patterns of R73 and the vectors of 95_test_vectors.md decode to what they stand for. -/
def Obligations.SampleWordsDecode : Prop :=
  decodeWord false 0x00E0 = .ok .cls ∧ decodeWord false 0x2ABC = .ok (.call 0xABC) ∧
  decodeWord false 0x3A0B = .ok (.seImm 0xA 0x0B) ∧ decodeWord false 0x8F24 = .ok (.addReg 0xF 0x2) ∧
  decodeWord false 0x8016 = .ok (.shr 0x0 0x1) ∧ decodeWord false 0xA2F0 = .ok (.mviI 0x2F0) ∧
  decodeWord false 0xD012 = .ok (.drw 0x0 0x1 0x2) ∧ decodeWord false 0xE29E = .ok (.skp 0x2) ∧
  decodeWord false 0xF30A = .ok (.waitkey 0x3) ∧ decodeWord false 0xF265 = .ok (.ldm 0x2)

/-! ### The cycle (R80 to R83, R200 to R204) -/

/-- R80: when the bytes at the pc decode to i, a step is exec of i, followed by the timer decay unless i raised a fault. -/
def Obligations.StepRunsDecodedInstruction : Prop :=
  ∀ (s : State) (i : Instr), s.Runs i →
    step s = match exec i s with
      | .next t => .next (if t.fault = none then
          { t with delayTimer := t.params.decay t.delayTimer, soundTimer := t.params.decay t.soundTimer } else t)
      | .fault f => .fault f
      | .refused r => .refused r

/-- R81: a halted state is returned unchanged. -/
def Obligations.HaltedStateStays : Prop :=
  ∀ s : State, s.fault ≠ none → step s = .next s

/-- R55, R202: a fetch whose second byte is outside memory. -/
def Obligations.FetchOutsideMemoryFaults : Prop :=
  ∀ s : State, s.Safe → s.pc.toNat + 1 > 4095 →
    step s = .next { s with fault := some ⟨.fetchOutOfRange, s.pc, s.pc.toNat⟩ }

/-- R82: a frozen cycle has no instruction effect, whatever the word, and the timers still decay. -/
def Obligations.FrozenCycleOnlyDecays : Prop :=
  ∀ (s : State) (w : Word), s.Safe → s.fetch = some w → s.awaiting = true →
    ¬ (wordFamily w = 0xF ∧ wordNN w = 0x0A) →
    step s = .next { s with
      delayTimer := s.params.decay s.delayTimer, soundTimer := s.params.decay s.soundTimer }

/-- R83, R202: a word that does not decode ends the cycle with the fault recorded and nothing else changed. -/
def Obligations.DecodeFailureChangesNothingElse : Prop :=
  ∀ (s : State) (w : Word) (e : DecodeError), s.Fetches w → decodeWord s.params.loose59 w = .error e →
    step s = .next { s with fault := some ⟨.decodeFailure, s.pc, w.toNat⟩ }

/-- 93_implementation_defined.md §1: no state is stuck; every state has a next state. -/
def Obligations.EveryStateHasNext : Prop :=
  ∀ s : State, ∃ t, step s = .next t

/-- R201, R202: a faulting cycle changes only the record, and the record names the cause. -/
def Obligations.FaultsArePreciseAndCaused : Prop :=
  ∀ (s t : State) (r : FaultRecord), s.Safe → step s = .next t → t.fault = some r →
    t = { s with fault := some r } ∧ r.pc = s.pc ∧
    match r.code with
    | .fetchOutOfRange => 4095 ≤ s.pc.toNat ∧ r.info = s.pc.toNat
    | .decodeFailure => ∃ w, s.fetch = some w ∧ wordDecodes s.params.sys0nnn s.params.loose59 w = false ∧
        r.info = w.toNat
    | .memoryOutOfRange => ∃ i, s.current = some i ∧ ¬ s.InRange (bytesAccessed i) ∧
        r.info = max s.index.toNat memSize
    | .stackOverflow => ∃ w nnn, s.fetch = some w ∧ decodeWord s.params.loose59 w = .ok (.call nnn) ∧
        s.params.stackCapacity = some s.stack.length ∧ r.info = w.toNat

/-! ### Control flow (40_control_flow.md) -/

/-- R101: SYS NNN under both values of `sys_0nnn`. -/
def Obligations.SysFollowsParameter : Prop :=
  ∀ (s : State) (nnn : Addr), nnn ∉ ([0x0E0, 0x0EE] : List Addr) →
    decodeWord s.params.loose59 (formNNN 0x0 nnn) = .ok (.sys nnn) ∧
    (s.params.sys0nnn = .decodeFailure →
      exec (.sys nnn) s = .next { s with fault := some ⟨.decodeFailure, s.pc, (formNNN 0x0 nnn).toNat⟩ }) ∧
    (s.params.sys0nnn = .nopAdvance → exec (.sys nnn) s = .next { s with pc := s.pc + 2 })

/-- R102, R109: JP and JP V0. -/
def Obligations.JumpsSetPc : Prop :=
  ∀ (s : State) (nnn : Addr),
    decodeWord s.params.loose59 (formNNN 0x1 nnn) = .ok (.jp nnn) ∧
    decodeWord s.params.loose59 (formNNN 0xB nnn) = .ok (.jpV0 nnn) ∧
    (∃ t, exec (.jp nnn) s = .next t ∧ t.pc.toNat = nnn.toNat ∧ s.Frame t {}) ∧
    (∃ t, exec (.jpV0 nnn) s = .next t ∧ t.pc.toNat = nnn.toNat + (s.getV 0).toNat ∧ s.Frame t {})

/-- R103, R27: CALL pushes its own address and jumps; a full bounded stack raises StackOverflow instead. -/
def Obligations.CallPushesItsAddress : Prop :=
  ∀ (s : State) (nnn : Addr),
    decodeWord s.params.loose59 (formNNN 0x2 nnn) = .ok (.call nnn) ∧
    (s.params.stackCapacity ≠ some s.stack.length → ∃ t, exec (.call nnn) s = .next t ∧
      t.stack = s.stack ++ [s.pc] ∧ t.pc = nnn.setWidth 16 ∧ s.Frame t { stack := true }) ∧
    (s.params.stackCapacity = some s.stack.length → exec (.call nnn) s =
      .next { s with fault := some ⟨.stackOverflow, s.pc, (formNNN 0x2 nnn).toNat⟩ })

/-- R104: RET goes to 2 after the popped address, and an empty stack pops 0 and stays empty. -/
def Obligations.RetPopsAndAddsTwo : Prop :=
  ∀ s : State,
    decodeWord s.params.loose59 0x00EE = .ok .ret ∧
    (∀ (rest : List Word) (a : Word), s.stack = rest ++ [a] → ∃ t, exec .ret s = .next t ∧
      t.stack = rest ∧ t.pc = a + 2 ∧ s.Frame t { stack := true }) ∧
    (s.stack = [] → ∃ t, exec .ret s = .next t ∧
      t.stack = [] ∧ t.pc = 2 ∧ s.Frame t { stack := true })

/-- R110: a RET that finds the stack a CALL left restores it and goes to 2 after the CALL. -/
def Obligations.CallThenRetReturns : Prop :=
  ∀ (s u v : State) (nnn : Addr), s.params.stackCapacity ≠ some s.stack.length → exec (.call nnn) s = .next u →
    v.stack = u.stack → ∃ t, exec .ret v = .next t ∧ t.pc = s.pc + 2 ∧ t.stack = s.stack

/-- R100, R105 to R108: the four register skips, and the non-zero low nibbles that are not 5XY0 or 9XY0 by default. -/
def Obligations.RegisterSkips : Prop :=
  ∀ (s : State) (x y : Nibble) (nn : Byte),
    (decodeWord s.params.loose59 (formXNN 0x3 x nn) = .ok (.seImm x nn) ∧ ∃ t, exec (.seImm x nn) s = .next t ∧
      t.pc = s.skipTarget (s.getV x = nn) ∧ s.Frame t {}) ∧
    (decodeWord s.params.loose59 (formXNN 0x4 x nn) = .ok (.sneImm x nn) ∧ ∃ t, exec (.sneImm x nn) s = .next t ∧
      t.pc = s.skipTarget (s.getV x ≠ nn) ∧ s.Frame t {}) ∧
    (decodeWord s.params.loose59 (formXYN 0x5 x y 0x0) = .ok (.seReg x y) ∧ ∃ t, exec (.seReg x y) s = .next t ∧
      t.pc = s.skipTarget (s.getV x = s.getV y) ∧ s.Frame t {}) ∧
    (decodeWord s.params.loose59 (formXYN 0x9 x y 0x0) = .ok (.sneReg x y) ∧ ∃ t, exec (.sneReg x y) s = .next t ∧
      t.pc = s.skipTarget (s.getV x ≠ s.getV y) ∧ s.Frame t {}) ∧
    (∀ n, n ≠ 0 → s.params.loose59 = false →
      decodeWord s.params.loose59 (formXYN 0x5 x y n) = .error (.family5 (formXYN 0x5 x y n)) ∧
      decodeWord s.params.loose59 (formXYN 0x9 x y n) = .error (.family9 (formXYN 0x9 x y n)))

/-! ### Register loads, arithmetic, logic, shifts, random (41_alu.md) -/

/-- R120, R121, R122: MVI, ADD immediate (no flag), MOV. -/
def Obligations.LoadsAndImmediateAdd : Prop :=
  ∀ (s : State) (x y : Nibble) (nn : Byte),
    (decodeWord s.params.loose59 (formXNN 0x6 x nn) = .ok (.mvi x nn) ∧ ∃ t, exec (.mvi x nn) s = .next t ∧
      t.getV x = nn ∧ t.pc = s.pc + 2 ∧ s.Frame t { regs := [x] }) ∧
    (decodeWord s.params.loose59 (formXNN 0x7 x nn) = .ok (.addImm x nn) ∧ ∃ t, exec (.addImm x nn) s = .next t ∧
      (t.getV x).toNat = ((s.getV x).toNat + nn.toNat) % 256 ∧ t.pc = s.pc + 2 ∧ s.Frame t { regs := [x] }) ∧
    (decodeWord s.params.loose59 (formXYN 0x8 x y 0x0) = .ok (.mov x y) ∧ ∃ t, exec (.mov x y) s = .next t ∧
      t.getV x = s.getV y ∧ t.pc = s.pc + 2 ∧ s.Frame t { regs := [x] })

/-- R123, R124, R125: OR, AND and XOR write Vx alone, so VF only when x = 15. -/
def Obligations.LogicWritesNoFlag : Prop :=
  ∀ (s : State) (x y : Nibble),
    (decodeWord s.params.loose59 (formXYN 0x8 x y 0x1) = .ok (.or x y) ∧ ∃ t, exec (.or x y) s = .next t ∧
      t.getV x = s.getV x ||| s.getV y ∧ t.pc = s.pc + 2 ∧ s.Frame t { regs := [x] }) ∧
    (decodeWord s.params.loose59 (formXYN 0x8 x y 0x2) = .ok (.and x y) ∧ ∃ t, exec (.and x y) s = .next t ∧
      t.getV x = s.getV x &&& s.getV y ∧ t.pc = s.pc + 2 ∧ s.Frame t { regs := [x] }) ∧
    (decodeWord s.params.loose59 (formXYN 0x8 x y 0x3) = .ok (.xor x y) ∧ ∃ t, exec (.xor x y) s = .next t ∧
      t.getV x = s.getV x ^^^ s.getV y ∧ t.pc = s.pc + 2 ∧ s.Frame t { regs := [x] })

/-- R126, R119: the sum modulo 256, and VF = 1 iff the addition overflowed. -/
def Obligations.AddSetsCarry : Prop :=
  ∀ (s : State) (x y : Nibble),
    decodeWord s.params.loose59 (formXYN 0x8 x y 0x4) = .ok (.addReg x y) ∧ ∃ t, exec (.addReg x y) s = .next t ∧
      s.ResultAndFlag t x (BitVec.ofNat 8 (((s.getV x).toNat + (s.getV y).toNat) % 256))
        (if (s.getV x).toNat + (s.getV y).toNat > 255 then 1 else 0) ∧
      t.pc = s.pc + 2 ∧ s.Frame t { regs := [x, 15] }

/-- R127, R119: Vx - Vy modulo 256, and VF = 0 iff it borrowed, that is, Vy > Vx. -/
def Obligations.SubSetsInvertedBorrow : Prop :=
  ∀ (s : State) (x y : Nibble),
    decodeWord s.params.loose59 (formXYN 0x8 x y 0x5) = .ok (.sub x y) ∧ ∃ t, exec (.sub x y) s = .next t ∧
      s.ResultAndFlag t x (BitVec.ofInt 8 (((s.getV x).toNat : Int) - (s.getV y).toNat))
        (if (s.getV y).toNat > (s.getV x).toNat then 0 else 1) ∧
      t.pc = s.pc + 2 ∧ s.Frame t { regs := [x, 15] }

/-- R129, R119: Vy - Vx modulo 256, and VF = 0 iff it borrowed, that is, Vx > Vy. -/
def Obligations.SubnSetsInvertedBorrow : Prop :=
  ∀ (s : State) (x y : Nibble),
    decodeWord s.params.loose59 (formXYN 0x8 x y 0x7) = .ok (.subn x y) ∧ ∃ t, exec (.subn x y) s = .next t ∧
      s.ResultAndFlag t x (BitVec.ofInt 8 (((s.getV y).toNat : Int) - (s.getV x).toNat))
        (if (s.getV x).toNat > (s.getV y).toNat then 0 else 1) ∧
      t.pc = s.pc + 2 ∧ s.Frame t { regs := [x, 15] }

/-- R128, R119: Vx shifted right, VF its bit 0 before, whatever y. -/
def Obligations.ShrKeepsLowBit : Prop :=
  ∀ (s : State) (x y : Nibble),
    decodeWord s.params.loose59 (formXYN 0x8 x y 0x6) = .ok (.shr x y) ∧ ∃ t, exec (.shr x y) s = .next t ∧
      s.ResultAndFlag t x (BitVec.ofNat 8 ((s.getV x).toNat / 2)) (BitVec.ofNat 8 ((s.getV x).toNat % 2)) ∧
      t.pc = s.pc + 2 ∧ s.Frame t { regs := [x, 15] }

/-- R130, R119: Vx shifted left without its top bit, VF that bit in place (0x00 or 0x80), whatever y. -/
def Obligations.ShlKeepsHighBitInPlace : Prop :=
  ∀ (s : State) (x y : Nibble),
    decodeWord s.params.loose59 (formXYN 0x8 x y 0xE) = .ok (.shl x y) ∧ ∃ t, exec (.shl x y) s = .next t ∧
      s.ResultAndFlag t x (BitVec.ofNat 8 (2 * (s.getV x).toNat % 256))
        (if 128 ≤ (s.getV x).toNat then 0x80 else 0x00) ∧
      t.pc = s.pc + 2 ∧ s.Frame t { regs := [x, 15] }

/-- R131: the masked draw of the cycle, and one draw used; no other instruction uses one. The draw is a free value (log
entry 3): this holds for every value of it. -/
def Obligations.RndMasksOneDraw : Prop :=
  (∀ (s : State) (x : Nibble) (nn : Byte),
    decodeWord s.params.loose59 (formXNN 0xC x nn) = .ok (.rnd x nn) ∧ ∃ t, exec (.rnd x nn) s = .next t ∧
      t.getV x = Config.rnd s.draws &&& nn ∧ t.draws = s.draws + 1 ∧ t.pc = s.pc + 2 ∧
      s.Frame t { regs := [x], draws := true }) ∧
  ∀ (i : Instr) (s t : State), (∀ x nn, i ≠ .rnd x nn) → exec i s = .next t → t.draws = s.draws

/-! ### Index register, BCD, block transfer (42_index_memory.md) -/

/-- R140, R141: MVI I and ADD I, without a flag. -/
def Obligations.IndexLoadAndAdd : Prop :=
  ∀ (s : State) (nnn : Addr) (x : Nibble),
    (decodeWord s.params.loose59 (formNNN 0xA nnn) = .ok (.mviI nnn) ∧ ∃ t, exec (.mviI nnn) s = .next t ∧
      t.index = nnn.setWidth 16 ∧ t.pc = s.pc + 2 ∧ s.Frame t { index := true }) ∧
    (decodeWord s.params.loose59 (formXNN 0xF x 0x1E) = .ok (.addI x) ∧ ∃ t, exec (.addI x) s = .next t ∧
      t.index.toNat = (s.index.toNat + (s.getV x).toNat) % 65536 ∧ t.pc = s.pc + 2 ∧ s.Frame t { index := true })

/-- R142: five times Vx, in the width the parameter gives. -/
def Obligations.FontIsFiveTimesVx : Prop :=
  ∀ (s : State) (x : Nibble),
    decodeWord s.params.loose59 (formXNN 0xF x 0x29) = .ok (.font x) ∧ ∃ t, exec (.font x) s = .next t ∧
      t.index.toNat = (match s.params.fontMulWidth with
        | .w16 => 5 * (s.getV x).toNat
        | .w8 => 5 * (s.getV x).toNat % 256) ∧
      t.pc = s.pc + 2 ∧ s.Frame t { index := true }

/-- R143, R139: the three digits at I, I + 1, I + 2, and nothing else, when I + 2 is in memory; otherwise the fault. -/
def Obligations.BcdStoresDigits : Prop :=
  ∀ (s : State) (x : Nibble), s.memory.wf s.params.font →
    decodeWord s.params.loose59 (formXNN 0xF x 0x33) = .ok (.bcd x) ∧
    (s.InRange 3 → ∃ t, exec (.bcd x) s = .next t ∧
      (t.readByte s.index.toNat).toNat = (s.getV x).toNat / 100 ∧
      (t.readByte (s.index.toNat + 1)).toNat = (s.getV x).toNat / 10 % 10 ∧
      (t.readByte (s.index.toNat + 2)).toNat = (s.getV x).toNat % 10 ∧
      t.pc = s.pc + 2 ∧ s.Frame t { bytes := (s.ea 0, 3) }) ∧
    (¬ s.InRange 3 → exec (.bcd x) s =
      .next { s with fault := some ⟨.memoryOutOfRange, s.pc, max s.index.toNat 4096⟩ })

/-- R144, R139: V0 to Vx at I to I + x, and nothing else, when I + x is in memory; otherwise the fault. -/
def Obligations.StmStoresRegisters : Prop :=
  ∀ (s : State) (x : Nibble), s.memory.wf s.params.font →
    decodeWord s.params.loose59 (formXNN 0xF x 0x55) = .ok (.stm x) ∧
    (s.InRange (x.toNat + 1) → ∃ t, exec (.stm x) s = .next t ∧
      (∀ z : Nibble, z ≤ x → t.readByte (s.index.toNat + z.toNat) = s.getV z) ∧
      t.pc = s.pc + 2 ∧ s.Frame t { bytes := (s.ea 0, x.toNat + 1) }) ∧
    (¬ s.InRange (x.toNat + 1) → exec (.stm x) s =
      .next { s with fault := some ⟨.memoryOutOfRange, s.pc, max s.index.toNat 4096⟩ })

/-- R145, R139: V0 to Vx loaded from I to I + x, the registers above x unchanged; otherwise the fault. -/
def Obligations.LdmLoadsRegisters : Prop :=
  ∀ (s : State) (x : Nibble),
    decodeWord s.params.loose59 (formXNN 0xF x 0x65) = .ok (.ldm x) ∧
    (s.InRange (x.toNat + 1) → ∃ t, exec (.ldm x) s = .next t ∧
      (∀ z : Nibble, t.getV z = if z ≤ x then s.readByte (s.index.toNat + z.toNat) else s.getV z) ∧
      t.pc = s.pc + 2 ∧ s.Frame t { regs := (List.range (x.toNat + 1)).map (BitVec.ofNat 4) }) ∧
    (¬ s.InRange (x.toNat + 1) → exec (.ldm x) s =
      .next { s with fault := some ⟨.memoryOutOfRange, s.pc, max s.index.toNat 4096⟩ })

/-- R146: FX55 then FX65 reproduces V0 to Vx, whatever ran between them, if I and those bytes are untouched. -/
def Obligations.StmThenLdmReproduces : Prop :=
  ∀ (s u v : State) (x : Nibble), s.memory.wf s.params.font → s.InRange (x.toNat + 1) → exec (.stm x) s = .next u →
    v.index = s.index → (∀ k ≤ x.toNat, v.readByte (s.index.toNat + k) = u.readByte (s.index.toNat + k)) →
    ∃ t, exec (.ldm x) v = .next t ∧ ∀ z : Nibble, z ≤ x → t.getV z = s.getV z

/-- R52, R53, R65, R251: a fetch reads the two bytes at the pc as memory holds them, the first as the high byte; so it sees
every pair of neighbouring bytes that STM (Vk and Vk+1 at I + k) or BCD (its digits) stored. -/
def Obligations.StoredBytesAreFetched : Prop :=
  (∀ s : State, s.pc.toNat + 1 ≤ 4095 → s.fetch.map BitVec.toNat =
    some (256 * (s.readByte s.pc.toNat).toNat + (s.readByte (s.pc.toNat + 1)).toNat)) ∧
  (∀ (s t : State) (x : Nibble) (k : Nat), s.memory.wf s.params.font → k < x.toNat → s.InRange (x.toNat + 1) →
    exec (.stm x) s = .next t → (t.setPc (s.index + BitVec.ofNat 16 k)).fetch.map BitVec.toNat =
      some (256 * (s.getV (BitVec.ofNat 4 k)).toNat + (s.getV (BitVec.ofNat 4 (k + 1))).toNat)) ∧
  (∀ (s t : State) (x : Nibble), s.memory.wf s.params.font → s.InRange 3 → exec (.bcd x) s = .next t →
    (t.setPc s.index).fetch.map BitVec.toNat =
      some (256 * ((s.getV x).toNat / 100) + (s.getV x).toNat / 10 % 10) ∧
    (t.setPc (s.index + 1)).fetch.map BitVec.toNat =
      some (256 * ((s.getV x).toNat / 10 % 10) + (s.getV x).toNat % 10))

/-! ### Display (43_display.md) -/

/-- R160: CLS clears every pixel and sets redraw, whatever the screen was. -/
def Obligations.ClsClearsScreen : Prop :=
  ∀ s : State, decodeWord s.params.loose59 0x00E0 = .ok .cls ∧ ∃ t, exec .cls s = .next t ∧
    (∀ p < 2048, t.screen.getLsbD p = false) ∧ t.redraw = true ∧ t.pc = s.pc + 2 ∧ s.Frame t { display := true }

/-- R162: the model's pixelAddr, which DRW draws with, is the formula of the rule, and no two bits of one draw fall on the
same pixel (which the rule derives). -/
def Obligations.SpriteBitsDoNotOverlap : Prop :=
  ∀ vx vy : Byte,
    (∀ r c : Nat, pixelAddr vx vy r c = ((vy.toNat + r) * 64 + (vx.toNat + c)) % 2048) ∧
    (∀ r r' c c' : Nat, r < 15 → r' < 15 → c < 8 → c' < 8 →
      pixelAddr vx vy r c = pixelAddr vx vy r' c' → r = r' ∧ c = c')

/-- R161: DRW inverts exactly the pixels of the set sprite bits, VF says whether one of them was set, and redraw is set, also
for N = 0; out of range it faults. Sprite bit (row, col) is bit 7 - col of the byte at I + row (R163), and falls on the pixel
of R162's formula; both are written out here. -/
def Obligations.DrwInvertsSpritePixels : Prop :=
  ∀ (s : State) (x y n : Nibble),
    decodeWord s.params.loose59 (formXYN 0xD x y n) = .ok (.drw x y n) ∧
    (s.InRange n.toNat → ∃ t, exec (.drw x y n) s = .next t ∧
      (∀ p < 2048, t.screen.getLsbD p ≠ s.screen.getLsbD p ↔
        ∃ row < n.toNat, ∃ col < 8, (s.readByte (s.index.toNat + row)).getLsbD (7 - col) = true ∧
          (((s.getV y).toNat + row) * 64 + ((s.getV x).toNat + col)) % 2048 = p) ∧
      (t.getV 15 = 1 ∨ t.getV 15 = 0) ∧
      (t.getV 15 = 1 ↔
        ∃ row < n.toNat, ∃ col < 8, (s.readByte (s.index.toNat + row)).getLsbD (7 - col) = true ∧
          s.screen.getLsbD ((((s.getV y).toNat + row) * 64 + ((s.getV x).toNat + col)) % 2048) = true) ∧
      t.redraw = true ∧ t.pc = s.pc + 2 ∧ s.Frame t { regs := [15], display := true }) ∧
    (¬ s.InRange n.toNat → exec (.drw x y n) s =
      .next { s with fault := some ⟨.memoryOutOfRange, s.pc, max s.index.toNat 4096⟩ })

/-! ### Keypad and timers (44_keypad_timers.md, 60_exceptions.md) -/

/-- R170, R171: the key skips test the whole byte of Vx. -/
def Obligations.KeySkips : Prop :=
  ∀ (s : State) (x : Nibble),
    (decodeWord s.params.loose59 (formXNN 0xE x 0x9E) = .ok (.skp x) ∧ ∃ t, exec (.skp x) s = .next t ∧
      t.pc = s.skipTarget (∃ k ∈ s.keys, k.toNat = (s.getV x).toNat) ∧ s.Frame t {}) ∧
    (decodeWord s.params.loose59 (formXNN 0xE x 0xA1) = .ok (.sknp x) ∧ ∃ t, exec (.sknp x) s = .next t ∧
      t.pc = s.skipTarget (¬ ∃ k ∈ s.keys, k.toNat = (s.getV x).toNat) ∧ s.Frame t {})

/-- R179: the key-wait takes the last-inserted key, or leaves the pc and awaits one. -/
def Obligations.WaitkeyTakesLastKey : Prop :=
  ∀ (s : State) (x : Nibble),
    decodeWord s.params.loose59 (formXNN 0xF x 0x0A) = .ok (.waitkey x) ∧
    (s.keys = [] → ∃ t, exec (.waitkey x) s = .next t ∧
      t.awaiting = true ∧ t.pc = s.pc ∧ s.Frame t { awaiting := true }) ∧
    (∀ (older : List Nibble) (k : Nibble), s.keys = older ++ [k] → ∃ t, exec (.waitkey x) s = .next t ∧
      (t.getV x).toNat = k.toNat ∧ t.awaiting = false ∧ t.pc = s.pc + 2 ∧
      s.Frame t { regs := [x], awaiting := true })

/-- R176: Vx is RoundDT of DT as it stands at the start of the cycle. -/
def Obligations.DelayTimerReadCompletes : Prop :=
  ∀ (s : State) (x : Nibble),
    decodeWord s.params.loose59 (formXNN 0xF x 0x07) = .ok (.movVxDt x) ∧ ∃ t, exec (.movVxDt x) s = .next t ∧
      t.getV x = s.params.roundDT s.delayTimer ∧ t.pc = s.pc + 2 ∧ s.Frame t { regs := [x] }

/-- R172: for a timer in range RoundDT is the nearest integer r, that is, r - 1/2 ≤ t ≤ r + 1/2, or 0 for a negative t. At a
tie r is the greater integer under the default, and the even one under the parameter's other value. -/
def Obligations.RoundDTIsNearest : Prop :=
  ∀ (p : Params) (t : Rat), p.Legal → TimerInRange p t →
    (t < 0 → p.roundDT t = 0) ∧
    (0 ≤ t → ((p.roundDT t).toNat : Rat) - 1 / 2 ≤ t ∧ t ≤ ((p.roundDT t).toNat : Rat) + 1 / 2) ∧
    (0 ≤ t → t = ((p.roundDT t).toNat : Rat) + 1 / 2 → p.dtRoundTies = .toEven ∧ (p.roundDT t).toNat % 2 = 0) ∧
    (0 ≤ t → t = ((p.roundDT t).toNat : Rat) - 1 / 2 → p.dtRoundTies = .awayFromZero ∨ (p.roundDT t).toNat % 2 = 0)

/-- R177, R178: the timers take Vx exactly, before the decay of the same cycle. -/
def Obligations.TimerWritesAreExact : Prop :=
  ∀ (s : State) (x : Nibble),
    (decodeWord s.params.loose59 (formXNN 0xF x 0x15) = .ok (.movDtVx x) ∧ ∃ t, exec (.movDtVx x) s = .next t ∧
      t.delayTimer = ((s.getV x).toNat : Rat) ∧ s.params.timerFormat.Representable t.delayTimer ∧
      t.pc = s.pc + 2 ∧ s.Frame t { delayTimer := true }) ∧
    (decodeWord s.params.loose59 (formXNN 0xF x 0x18) = .ok (.movStVx x) ∧ ∃ t, exec (.movStVx x) s = .next t ∧
      t.soundTimer = ((s.getV x).toNat : Rat) ∧ s.params.timerFormat.Representable t.soundTimer ∧
      t.pc = s.pc + 2 ∧ s.Frame t { soundTimer := true })

/-- R210: at the nominal rates the decrement is 0x1.999999999999ap-4, and in binary32 it is 0x1.999998p-4 (95_test_vectors.md V-T6). -/
def Obligations.NominalTimerDelta : Prop :=
  Params.nominal.timerDelta = mkRat 0x1999999999999A (2 ^ 56) ∧
  ({ Params.nominal with timerFormat := .binary32 } : Params).timerDelta = mkRat 0x1999998 (2 ^ 28)

/-- R211: a positive timer loses timer_delta, rounded to the format; any other timer is left alone, and nothing clamps at 0. -/
def Obligations.DecayOfOneTimer : Prop :=
  ∀ (p : Params) (t : Rat),
    (0 < t → p.decay t = p.timerFormat.round (t - p.timerDelta)) ∧ (t ≤ 0 → p.decay t = t)

/-- R210, R211: rounding gives a number of the format (an integer of at most `precision` bits times a power of two not below
the least spacing: `Representable`, said without `round`), and none is nearer. If another, y, is as near, the result is an
even multiple of the gap between the two, that is, its significand is even. The exponent has no upper bound (log entry 10). -/
def Obligations.RoundingIsToNearest : Prop :=
  ∀ (f : TimerFormat) (x : Rat), f.Representable (f.round x) ∧
    ∀ y : Rat, f.Representable y → |f.round x - x| ≤ |y - x| ∧
      (|y - x| = |f.round x - x| → y ≠ f.round x → ∃ m : Int, f.round x = 2 * (m : Rat) * (y - f.round x))

/-- R212: the sound output is ST > 0. -/
def Obligations.SoundOutput : Prop :=
  ∀ s : State, s.shouldPlaySound = true ↔ s.soundTimer > 0

/-! ### Whole-machine rules -/

/-- R35: the invariants hold after every step from a state that has them. -/
def Obligations.StepKeepsWellFormedState : Prop :=
  ∀ s t : State, s.Wf → step s = .next t → t.Wf

/-- R35, R38: they hold at reset. -/
def Obligations.ResetIsWellFormed : Prop := State.reset.Wf

/-- R22, R21: exec writes no register but the destination and, for the flag writers of R22, VF. -/
def Obligations.OnlyTheseRegistersChange : Prop :=
  ∀ (i : Instr) (s t : State), exec i s = .next t → ∀ z, z ∉ regsWritten i → t.getV z = s.getV z

/-- R28, R32: only CLS and DRW change the screen or set redraw, and no step clears redraw. -/
def Obligations.OnlyDrawingChangesDisplay : Prop :=
  ∀ s t : State, step s = .next t →
    (t.screen ≠ s.screen ∨ t.redraw ≠ s.redraw →
      s.current = some .cls ∨ ∃ x y n, s.current = some (.drw x y n)) ∧
    (s.redraw = true → t.redraw = true)

/-- R23, R26: only ANNN, FX1E and FX29 change I, and only CALL and RET change the stack. -/
def Obligations.OnlyTheseChangeIndexAndStack : Prop :=
  ∀ s t : State, step s = .next t →
    (t.index ≠ s.index → ∃ nnn x, s.current = some (.mviI nnn) ∨ s.current = some (.addI x) ∨ s.current = some (.font x)) ∧
    (t.stack ≠ s.stack → ∃ nnn, s.current = some (.call nnn) ∨ s.current = some .ret)

/-- R51, R56: only BCD and STM change a byte of memory, and only among the bytes from I on that they access. -/
def Obligations.OnlyStoresChangeMemory : Prop :=
  ∀ s t : State, step s = .next t → ∀ a, t.readByte a ≠ s.readByte a →
    ∃ i x, s.current = some i ∧ (i = .bcd x ∨ i = .stm x) ∧ s.InRange (bytesAccessed i) ∧
      s.index.toNat ≤ a ∧ a < s.index.toNat + bytesAccessed i

/-- R30, R31, R33: no step changes the keys or the parameters, a fault record stays, and only the key-wait changes awaiting. -/
def Obligations.KeysFaultAndAwaitingRules : Prop :=
  ∀ s t : State, step s = .next t →
    t.keys = s.keys ∧ t.params = s.params ∧ (s.fault ≠ none → t.fault = s.fault) ∧
    (t.awaiting ≠ s.awaiting → ∃ x, s.current = some (.waitkey x))

/-! ### Reset and the host (70_reset_and_hazards.md, 60_exceptions.md) -/

/-- R38, R241: the reset state the spec gives, with the nominal parameters (log entries 1 and 6). -/
def Obligations.ResetState : Prop :=
  (∀ x, State.reset.getV x = 0) ∧ State.reset.index = 0 ∧ State.reset.pc = 0x200 ∧ State.reset.stack = [] ∧
  (∀ p < 2048, State.reset.screen.getLsbD p = false) ∧ State.reset.delayTimer = 0 ∧ State.reset.soundTimer = 0 ∧
  State.reset.keys = [] ∧ State.reset.awaiting = false ∧ State.reset.redraw = false ∧ State.reset.fault = none ∧
  (∀ a, (h : a < 80) → State.reset.readByte a = gk2Font[a]) ∧ (∀ a, 80 ≤ a → State.reset.readByte a = 0)

/-- R38, R240, R241: load in a legal configuration (R210 and log entry 10), also from a halted state: the image, the reset
values, no fault. That the parameters stand in State and are kept is log entry 1; the invariants are those of R35. -/
def Obligations.LoadBuildsFreshState : Prop :=
  ∀ (s : State) (rom : List Byte), s.params.Legal → rom.length ≤ 3584 → ∃ t, load rom s = .next t ∧
    (∀ a, (h : a < 80) → t.readByte a = s.params.font[a]) ∧
    (∀ a, 80 ≤ a → a < 0x200 → t.readByte a = 0) ∧
    (∀ i, (h : i < rom.length) → t.readByte (0x200 + i) = rom[i]) ∧
    (∀ a, 0x200 + rom.length ≤ a → t.readByte a = 0) ∧
    (∀ x, t.getV x = 0) ∧ t.index = 0 ∧ t.pc = 0x200 ∧ t.stack = [] ∧ (∀ p < 2048, t.screen.getLsbD p = false) ∧
    t.delayTimer = 0 ∧ t.soundTimer = 0 ∧ t.keys = [] ∧ t.awaiting = false ∧ t.redraw = false ∧ t.fault = none ∧
    t.params = s.params ∧ t.Wf

/-- R241, R210: a ROM that does not fit has no move, nor has a configuration that is not `Legal`: timer_delta outside
(0, 0.5) as R210 says, or an interval beyond the exponent range of the format, which log entry 10 adds. -/
def Obligations.LoadRefusals : Prop :=
  ∀ (s : State) (rom : List Byte),
    (¬ s.params.Legal → load rom s = .refused .illegalConfiguration) ∧
    (s.params.Legal → rom.length > 3584 → load rom s = .refused (.romTooLong rom.length))

/-- R215: key events change only the keys: down appends a code that is not held, up removes one, and others have no move. -/
def Obligations.KeyEvents : Prop :=
  ∀ (s : State) (k : Nat),
    (16 ≤ k → keyDown k s = .refused (.keyCodeOutOfRange k) ∧ keyUp k s = .refused (.keyCodeOutOfRange k)) ∧
    (∀ _ : k < 16,
      (BitVec.ofNat 4 k ∈ s.keys → keyDown k s = .next s) ∧
      (BitVec.ofNat 4 k ∉ s.keys → keyDown k s = .next { s with keys := s.keys ++ [BitVec.ofNat 4 k] } ∧
        keyUp k s = .next s) ∧
      (∀ before after : List Nibble, BitVec.ofNat 4 k ∉ before → s.keys = before ++ BitVec.ofNat 4 k :: after →
        keyUp k s = .next { s with keys := before ++ after }))

/-- R220, R221, R226: a tick of a loaded scheduler is one cycle; then, if redraw, the screen is rendered and redraw falls. -/
def Obligations.SchedulerTick : Prop :=
  ∀ (c : Scheduler) (s : State), step c.machine = .next s →
    (c.phase = .unloaded → c.tick = .next (c, ⟨none, false⟩)) ∧
    (c.phase ≠ .unloaded → c.tick = .next
      ({ c with machine := { s with redraw := false } },
       ⟨if s.redraw then some ((List.range 2048).map s.screen.getLsbD) else none, decide (0 < s.soundTimer)⟩))

/-- R35, R215, R221, R240: the host's moves keep the invariants of StepKeepsWellFormedState, so every reachable state has them. -/
def Obligations.HostMovesKeepWellFormedState : Prop :=
  ∀ s : State, s.Wf →
    (∀ (k : Nat) (t : State), keyDown k s = .next t → t.Wf) ∧
    (∀ (k : Nat) (t : State), keyUp k s = .next t → t.Wf) ∧
    (∀ (rom : List Byte) (t : State), load rom s = .next t → t.Wf) ∧
    s.redrawAck.Wf
end

