-- ==== Sys2Proof/Laws/State.lean ====
section
/-! SUPPORT. What each update of the state leaves in each field, and in the reads getV, readByte, ea and halted: one lemma each, by rfl. -/

namespace Sys2Proof.Machine

variable (s : State)

/-! `writeByte` -/

@[simp] theorem State.writeByte_memory (a : Nat) (v : Byte) : (s.writeByte a v).memory = (if a < memSize then s.memory.write s.params.font a v else s.memory) := rfl
@[simp] theorem State.writeByte_regs (a : Nat) (v : Byte) : (s.writeByte a v).regs = s.regs := rfl
@[simp] theorem State.writeByte_index (a : Nat) (v : Byte) : (s.writeByte a v).index = s.index := rfl
@[simp] theorem State.writeByte_pc (a : Nat) (v : Byte) : (s.writeByte a v).pc = s.pc := rfl
@[simp] theorem State.writeByte_stack (a : Nat) (v : Byte) : (s.writeByte a v).stack = s.stack := rfl
@[simp] theorem State.writeByte_screen (a : Nat) (v : Byte) : (s.writeByte a v).screen = s.screen := rfl
@[simp] theorem State.writeByte_delayTimer (a : Nat) (v : Byte) : (s.writeByte a v).delayTimer = s.delayTimer := rfl
@[simp] theorem State.writeByte_soundTimer (a : Nat) (v : Byte) : (s.writeByte a v).soundTimer = s.soundTimer := rfl
@[simp] theorem State.writeByte_keys (a : Nat) (v : Byte) : (s.writeByte a v).keys = s.keys := rfl
@[simp] theorem State.writeByte_awaiting (a : Nat) (v : Byte) : (s.writeByte a v).awaiting = s.awaiting := rfl
@[simp] theorem State.writeByte_redraw (a : Nat) (v : Byte) : (s.writeByte a v).redraw = s.redraw := rfl
@[simp] theorem State.writeByte_fault (a : Nat) (v : Byte) : (s.writeByte a v).fault = s.fault := rfl
@[simp] theorem State.writeByte_params (a : Nat) (v : Byte) : (s.writeByte a v).params = s.params := rfl
@[simp] theorem State.writeByte_draws (a : Nat) (v : Byte) : (s.writeByte a v).draws = s.draws := rfl
@[simp] theorem State.writeByte_getV (a : Nat) (v : Byte) (z : Nibble) : (s.writeByte a v).getV z = s.getV z := rfl
@[simp] theorem State.writeByte_ea (a : Nat) (v : Byte) (z : Nat) : (s.writeByte a v).ea z = s.ea z := rfl
@[simp] theorem State.writeByte_halted (a : Nat) (v : Byte) : (s.writeByte a v).halted = s.halted := rfl

/-! `setV` -/

@[simp] theorem State.setV_memory (x : Nibble) (v : Byte) : (s.setV x v).memory = s.memory := rfl
@[simp] theorem State.setV_regs (x : Nibble) (v : Byte) : (s.setV x v).regs = (s.regs.set x.toNat v) := rfl
@[simp] theorem State.setV_index (x : Nibble) (v : Byte) : (s.setV x v).index = s.index := rfl
@[simp] theorem State.setV_pc (x : Nibble) (v : Byte) : (s.setV x v).pc = s.pc := rfl
@[simp] theorem State.setV_stack (x : Nibble) (v : Byte) : (s.setV x v).stack = s.stack := rfl
@[simp] theorem State.setV_screen (x : Nibble) (v : Byte) : (s.setV x v).screen = s.screen := rfl
@[simp] theorem State.setV_delayTimer (x : Nibble) (v : Byte) : (s.setV x v).delayTimer = s.delayTimer := rfl
@[simp] theorem State.setV_soundTimer (x : Nibble) (v : Byte) : (s.setV x v).soundTimer = s.soundTimer := rfl
@[simp] theorem State.setV_keys (x : Nibble) (v : Byte) : (s.setV x v).keys = s.keys := rfl
@[simp] theorem State.setV_awaiting (x : Nibble) (v : Byte) : (s.setV x v).awaiting = s.awaiting := rfl
@[simp] theorem State.setV_redraw (x : Nibble) (v : Byte) : (s.setV x v).redraw = s.redraw := rfl
@[simp] theorem State.setV_fault (x : Nibble) (v : Byte) : (s.setV x v).fault = s.fault := rfl
@[simp] theorem State.setV_params (x : Nibble) (v : Byte) : (s.setV x v).params = s.params := rfl
@[simp] theorem State.setV_draws (x : Nibble) (v : Byte) : (s.setV x v).draws = s.draws := rfl
@[simp] theorem State.setV_readByte (x : Nibble) (v : Byte) (z : Nat) : (s.setV x v).readByte z = s.readByte z := rfl
@[simp] theorem State.setV_ea (x : Nibble) (v : Byte) (z : Nat) : (s.setV x v).ea z = s.ea z := rfl
@[simp] theorem State.setV_halted (x : Nibble) (v : Byte) : (s.setV x v).halted = s.halted := rfl

/-! `loadUpTo` -/

@[simp] theorem State.loadUpTo_memory (x : Nibble) : (s.loadUpTo x).memory = s.memory := rfl
@[simp] theorem State.loadUpTo_index (x : Nibble) : (s.loadUpTo x).index = s.index := rfl
@[simp] theorem State.loadUpTo_pc (x : Nibble) : (s.loadUpTo x).pc = s.pc := rfl
@[simp] theorem State.loadUpTo_stack (x : Nibble) : (s.loadUpTo x).stack = s.stack := rfl
@[simp] theorem State.loadUpTo_screen (x : Nibble) : (s.loadUpTo x).screen = s.screen := rfl
@[simp] theorem State.loadUpTo_delayTimer (x : Nibble) : (s.loadUpTo x).delayTimer = s.delayTimer := rfl
@[simp] theorem State.loadUpTo_soundTimer (x : Nibble) : (s.loadUpTo x).soundTimer = s.soundTimer := rfl
@[simp] theorem State.loadUpTo_keys (x : Nibble) : (s.loadUpTo x).keys = s.keys := rfl
@[simp] theorem State.loadUpTo_awaiting (x : Nibble) : (s.loadUpTo x).awaiting = s.awaiting := rfl
@[simp] theorem State.loadUpTo_redraw (x : Nibble) : (s.loadUpTo x).redraw = s.redraw := rfl
@[simp] theorem State.loadUpTo_fault (x : Nibble) : (s.loadUpTo x).fault = s.fault := rfl
@[simp] theorem State.loadUpTo_params (x : Nibble) : (s.loadUpTo x).params = s.params := rfl
@[simp] theorem State.loadUpTo_draws (x : Nibble) : (s.loadUpTo x).draws = s.draws := rfl
@[simp] theorem State.loadUpTo_readByte (x : Nibble) (z : Nat) : (s.loadUpTo x).readByte z = s.readByte z := rfl
@[simp] theorem State.loadUpTo_ea (x : Nibble) (z : Nat) : (s.loadUpTo x).ea z = s.ea z := rfl
@[simp] theorem State.loadUpTo_halted (x : Nibble) : (s.loadUpTo x).halted = s.halted := rfl

/-! `setI` -/

@[simp] theorem State.setI_memory (v : Word) : (s.setI v).memory = s.memory := rfl
@[simp] theorem State.setI_regs (v : Word) : (s.setI v).regs = s.regs := rfl
@[simp] theorem State.setI_index (v : Word) : (s.setI v).index = v := rfl
@[simp] theorem State.setI_pc (v : Word) : (s.setI v).pc = s.pc := rfl
@[simp] theorem State.setI_stack (v : Word) : (s.setI v).stack = s.stack := rfl
@[simp] theorem State.setI_screen (v : Word) : (s.setI v).screen = s.screen := rfl
@[simp] theorem State.setI_delayTimer (v : Word) : (s.setI v).delayTimer = s.delayTimer := rfl
@[simp] theorem State.setI_soundTimer (v : Word) : (s.setI v).soundTimer = s.soundTimer := rfl
@[simp] theorem State.setI_keys (v : Word) : (s.setI v).keys = s.keys := rfl
@[simp] theorem State.setI_awaiting (v : Word) : (s.setI v).awaiting = s.awaiting := rfl
@[simp] theorem State.setI_redraw (v : Word) : (s.setI v).redraw = s.redraw := rfl
@[simp] theorem State.setI_fault (v : Word) : (s.setI v).fault = s.fault := rfl
@[simp] theorem State.setI_params (v : Word) : (s.setI v).params = s.params := rfl
@[simp] theorem State.setI_draws (v : Word) : (s.setI v).draws = s.draws := rfl
@[simp] theorem State.setI_getV (v : Word) (z : Nibble) : (s.setI v).getV z = s.getV z := rfl
@[simp] theorem State.setI_readByte (v : Word) (z : Nat) : (s.setI v).readByte z = s.readByte z := rfl
@[simp] theorem State.setI_halted (v : Word) : (s.setI v).halted = s.halted := rfl

/-! `setPc` -/

@[simp] theorem State.setPc_memory (v : Word) : (s.setPc v).memory = s.memory := rfl
@[simp] theorem State.setPc_regs (v : Word) : (s.setPc v).regs = s.regs := rfl
@[simp] theorem State.setPc_index (v : Word) : (s.setPc v).index = s.index := rfl
@[simp] theorem State.setPc_pc (v : Word) : (s.setPc v).pc = v := rfl
@[simp] theorem State.setPc_stack (v : Word) : (s.setPc v).stack = s.stack := rfl
@[simp] theorem State.setPc_screen (v : Word) : (s.setPc v).screen = s.screen := rfl
@[simp] theorem State.setPc_delayTimer (v : Word) : (s.setPc v).delayTimer = s.delayTimer := rfl
@[simp] theorem State.setPc_soundTimer (v : Word) : (s.setPc v).soundTimer = s.soundTimer := rfl
@[simp] theorem State.setPc_keys (v : Word) : (s.setPc v).keys = s.keys := rfl
@[simp] theorem State.setPc_awaiting (v : Word) : (s.setPc v).awaiting = s.awaiting := rfl
@[simp] theorem State.setPc_redraw (v : Word) : (s.setPc v).redraw = s.redraw := rfl
@[simp] theorem State.setPc_fault (v : Word) : (s.setPc v).fault = s.fault := rfl
@[simp] theorem State.setPc_params (v : Word) : (s.setPc v).params = s.params := rfl
@[simp] theorem State.setPc_draws (v : Word) : (s.setPc v).draws = s.draws := rfl
@[simp] theorem State.setPc_getV (v : Word) (z : Nibble) : (s.setPc v).getV z = s.getV z := rfl
@[simp] theorem State.setPc_readByte (v : Word) (z : Nat) : (s.setPc v).readByte z = s.readByte z := rfl
@[simp] theorem State.setPc_ea (v : Word) (z : Nat) : (s.setPc v).ea z = s.ea z := rfl
@[simp] theorem State.setPc_halted (v : Word) : (s.setPc v).halted = s.halted := rfl

/-! `advance` -/

@[simp] theorem State.advance_memory : (s.advance).memory = s.memory := rfl
@[simp] theorem State.advance_regs : (s.advance).regs = s.regs := rfl
@[simp] theorem State.advance_index : (s.advance).index = s.index := rfl
@[simp] theorem State.advance_pc : (s.advance).pc = (s.pc + 2) := rfl
@[simp] theorem State.advance_stack : (s.advance).stack = s.stack := rfl
@[simp] theorem State.advance_screen : (s.advance).screen = s.screen := rfl
@[simp] theorem State.advance_delayTimer : (s.advance).delayTimer = s.delayTimer := rfl
@[simp] theorem State.advance_soundTimer : (s.advance).soundTimer = s.soundTimer := rfl
@[simp] theorem State.advance_keys : (s.advance).keys = s.keys := rfl
@[simp] theorem State.advance_awaiting : (s.advance).awaiting = s.awaiting := rfl
@[simp] theorem State.advance_redraw : (s.advance).redraw = s.redraw := rfl
@[simp] theorem State.advance_fault : (s.advance).fault = s.fault := rfl
@[simp] theorem State.advance_params : (s.advance).params = s.params := rfl
@[simp] theorem State.advance_draws : (s.advance).draws = s.draws := rfl
@[simp] theorem State.advance_getV (z : Nibble) : (s.advance).getV z = s.getV z := rfl
@[simp] theorem State.advance_readByte (z : Nat) : (s.advance).readByte z = s.readByte z := rfl
@[simp] theorem State.advance_ea (z : Nat) : (s.advance).ea z = s.ea z := rfl
@[simp] theorem State.advance_halted : (s.advance).halted = s.halted := rfl

/-! `skip` -/

@[simp] theorem State.skip_memory (c : Bool) : (s.skip c).memory = s.memory := rfl
@[simp] theorem State.skip_regs (c : Bool) : (s.skip c).regs = s.regs := rfl
@[simp] theorem State.skip_index (c : Bool) : (s.skip c).index = s.index := rfl
@[simp] theorem State.skip_pc (c : Bool) : (s.skip c).pc = (if c then s.pc + 4 else s.pc + 2) := rfl
@[simp] theorem State.skip_stack (c : Bool) : (s.skip c).stack = s.stack := rfl
@[simp] theorem State.skip_screen (c : Bool) : (s.skip c).screen = s.screen := rfl
@[simp] theorem State.skip_delayTimer (c : Bool) : (s.skip c).delayTimer = s.delayTimer := rfl
@[simp] theorem State.skip_soundTimer (c : Bool) : (s.skip c).soundTimer = s.soundTimer := rfl
@[simp] theorem State.skip_keys (c : Bool) : (s.skip c).keys = s.keys := rfl
@[simp] theorem State.skip_awaiting (c : Bool) : (s.skip c).awaiting = s.awaiting := rfl
@[simp] theorem State.skip_redraw (c : Bool) : (s.skip c).redraw = s.redraw := rfl
@[simp] theorem State.skip_fault (c : Bool) : (s.skip c).fault = s.fault := rfl
@[simp] theorem State.skip_params (c : Bool) : (s.skip c).params = s.params := rfl
@[simp] theorem State.skip_draws (c : Bool) : (s.skip c).draws = s.draws := rfl
@[simp] theorem State.skip_getV (c : Bool) (z : Nibble) : (s.skip c).getV z = s.getV z := rfl
@[simp] theorem State.skip_readByte (c : Bool) (z : Nat) : (s.skip c).readByte z = s.readByte z := rfl
@[simp] theorem State.skip_ea (c : Bool) (z : Nat) : (s.skip c).ea z = s.ea z := rfl
@[simp] theorem State.skip_halted (c : Bool) : (s.skip c).halted = s.halted := rfl

/-! `push` -/

@[simp] theorem State.push_memory (a : Word) : (s.push a).memory = s.memory := rfl
@[simp] theorem State.push_regs (a : Word) : (s.push a).regs = s.regs := rfl
@[simp] theorem State.push_index (a : Word) : (s.push a).index = s.index := rfl
@[simp] theorem State.push_pc (a : Word) : (s.push a).pc = s.pc := rfl
@[simp] theorem State.push_stack (a : Word) : (s.push a).stack = (s.stack ++ [a]) := rfl
@[simp] theorem State.push_screen (a : Word) : (s.push a).screen = s.screen := rfl
@[simp] theorem State.push_delayTimer (a : Word) : (s.push a).delayTimer = s.delayTimer := rfl
@[simp] theorem State.push_soundTimer (a : Word) : (s.push a).soundTimer = s.soundTimer := rfl
@[simp] theorem State.push_keys (a : Word) : (s.push a).keys = s.keys := rfl
@[simp] theorem State.push_awaiting (a : Word) : (s.push a).awaiting = s.awaiting := rfl
@[simp] theorem State.push_redraw (a : Word) : (s.push a).redraw = s.redraw := rfl
@[simp] theorem State.push_fault (a : Word) : (s.push a).fault = s.fault := rfl
@[simp] theorem State.push_params (a : Word) : (s.push a).params = s.params := rfl
@[simp] theorem State.push_draws (a : Word) : (s.push a).draws = s.draws := rfl
@[simp] theorem State.push_getV (a : Word) (z : Nibble) : (s.push a).getV z = s.getV z := rfl
@[simp] theorem State.push_readByte (a : Word) (z : Nat) : (s.push a).readByte z = s.readByte z := rfl
@[simp] theorem State.push_ea (a : Word) (z : Nat) : (s.push a).ea z = s.ea z := rfl
@[simp] theorem State.push_halted (a : Word) : (s.push a).halted = s.halted := rfl

/-! `drop` -/

@[simp] theorem State.drop_memory : (s.drop).memory = s.memory := rfl
@[simp] theorem State.drop_regs : (s.drop).regs = s.regs := rfl
@[simp] theorem State.drop_index : (s.drop).index = s.index := rfl
@[simp] theorem State.drop_pc : (s.drop).pc = s.pc := rfl
@[simp] theorem State.drop_stack : (s.drop).stack = s.stack.dropLast := rfl
@[simp] theorem State.drop_screen : (s.drop).screen = s.screen := rfl
@[simp] theorem State.drop_delayTimer : (s.drop).delayTimer = s.delayTimer := rfl
@[simp] theorem State.drop_soundTimer : (s.drop).soundTimer = s.soundTimer := rfl
@[simp] theorem State.drop_keys : (s.drop).keys = s.keys := rfl
@[simp] theorem State.drop_awaiting : (s.drop).awaiting = s.awaiting := rfl
@[simp] theorem State.drop_redraw : (s.drop).redraw = s.redraw := rfl
@[simp] theorem State.drop_fault : (s.drop).fault = s.fault := rfl
@[simp] theorem State.drop_params : (s.drop).params = s.params := rfl
@[simp] theorem State.drop_draws : (s.drop).draws = s.draws := rfl
@[simp] theorem State.drop_getV (z : Nibble) : (s.drop).getV z = s.getV z := rfl
@[simp] theorem State.drop_readByte (z : Nat) : (s.drop).readByte z = s.readByte z := rfl
@[simp] theorem State.drop_ea (z : Nat) : (s.drop).ea z = s.ea z := rfl
@[simp] theorem State.drop_halted : (s.drop).halted = s.halted := rfl

/-! `setScreen` -/

@[simp] theorem State.setScreen_memory (scr : BitVec 2048) : (s.setScreen scr).memory = s.memory := rfl
@[simp] theorem State.setScreen_regs (scr : BitVec 2048) : (s.setScreen scr).regs = s.regs := rfl
@[simp] theorem State.setScreen_index (scr : BitVec 2048) : (s.setScreen scr).index = s.index := rfl
@[simp] theorem State.setScreen_pc (scr : BitVec 2048) : (s.setScreen scr).pc = s.pc := rfl
@[simp] theorem State.setScreen_stack (scr : BitVec 2048) : (s.setScreen scr).stack = s.stack := rfl
@[simp] theorem State.setScreen_screen (scr : BitVec 2048) : (s.setScreen scr).screen = scr := rfl
@[simp] theorem State.setScreen_delayTimer (scr : BitVec 2048) : (s.setScreen scr).delayTimer = s.delayTimer := rfl
@[simp] theorem State.setScreen_soundTimer (scr : BitVec 2048) : (s.setScreen scr).soundTimer = s.soundTimer := rfl
@[simp] theorem State.setScreen_keys (scr : BitVec 2048) : (s.setScreen scr).keys = s.keys := rfl
@[simp] theorem State.setScreen_awaiting (scr : BitVec 2048) : (s.setScreen scr).awaiting = s.awaiting := rfl
@[simp] theorem State.setScreen_redraw (scr : BitVec 2048) : (s.setScreen scr).redraw = true := rfl
@[simp] theorem State.setScreen_fault (scr : BitVec 2048) : (s.setScreen scr).fault = s.fault := rfl
@[simp] theorem State.setScreen_params (scr : BitVec 2048) : (s.setScreen scr).params = s.params := rfl
@[simp] theorem State.setScreen_draws (scr : BitVec 2048) : (s.setScreen scr).draws = s.draws := rfl
@[simp] theorem State.setScreen_getV (scr : BitVec 2048) (z : Nibble) : (s.setScreen scr).getV z = s.getV z := rfl
@[simp] theorem State.setScreen_readByte (scr : BitVec 2048) (z : Nat) : (s.setScreen scr).readByte z = s.readByte z := rfl
@[simp] theorem State.setScreen_ea (scr : BitVec 2048) (z : Nat) : (s.setScreen scr).ea z = s.ea z := rfl
@[simp] theorem State.setScreen_halted (scr : BitVec 2048) : (s.setScreen scr).halted = s.halted := rfl

/-! `setDT` -/

@[simp] theorem State.setDT_memory (t : Rat) : (s.setDT t).memory = s.memory := rfl
@[simp] theorem State.setDT_regs (t : Rat) : (s.setDT t).regs = s.regs := rfl
@[simp] theorem State.setDT_index (t : Rat) : (s.setDT t).index = s.index := rfl
@[simp] theorem State.setDT_pc (t : Rat) : (s.setDT t).pc = s.pc := rfl
@[simp] theorem State.setDT_stack (t : Rat) : (s.setDT t).stack = s.stack := rfl
@[simp] theorem State.setDT_screen (t : Rat) : (s.setDT t).screen = s.screen := rfl
@[simp] theorem State.setDT_delayTimer (t : Rat) : (s.setDT t).delayTimer = t := rfl
@[simp] theorem State.setDT_soundTimer (t : Rat) : (s.setDT t).soundTimer = s.soundTimer := rfl
@[simp] theorem State.setDT_keys (t : Rat) : (s.setDT t).keys = s.keys := rfl
@[simp] theorem State.setDT_awaiting (t : Rat) : (s.setDT t).awaiting = s.awaiting := rfl
@[simp] theorem State.setDT_redraw (t : Rat) : (s.setDT t).redraw = s.redraw := rfl
@[simp] theorem State.setDT_fault (t : Rat) : (s.setDT t).fault = s.fault := rfl
@[simp] theorem State.setDT_params (t : Rat) : (s.setDT t).params = s.params := rfl
@[simp] theorem State.setDT_draws (t : Rat) : (s.setDT t).draws = s.draws := rfl
@[simp] theorem State.setDT_getV (t : Rat) (z : Nibble) : (s.setDT t).getV z = s.getV z := rfl
@[simp] theorem State.setDT_readByte (t : Rat) (z : Nat) : (s.setDT t).readByte z = s.readByte z := rfl
@[simp] theorem State.setDT_ea (t : Rat) (z : Nat) : (s.setDT t).ea z = s.ea z := rfl
@[simp] theorem State.setDT_halted (t : Rat) : (s.setDT t).halted = s.halted := rfl

/-! `setST` -/

@[simp] theorem State.setST_memory (t : Rat) : (s.setST t).memory = s.memory := rfl
@[simp] theorem State.setST_regs (t : Rat) : (s.setST t).regs = s.regs := rfl
@[simp] theorem State.setST_index (t : Rat) : (s.setST t).index = s.index := rfl
@[simp] theorem State.setST_pc (t : Rat) : (s.setST t).pc = s.pc := rfl
@[simp] theorem State.setST_stack (t : Rat) : (s.setST t).stack = s.stack := rfl
@[simp] theorem State.setST_screen (t : Rat) : (s.setST t).screen = s.screen := rfl
@[simp] theorem State.setST_delayTimer (t : Rat) : (s.setST t).delayTimer = s.delayTimer := rfl
@[simp] theorem State.setST_soundTimer (t : Rat) : (s.setST t).soundTimer = t := rfl
@[simp] theorem State.setST_keys (t : Rat) : (s.setST t).keys = s.keys := rfl
@[simp] theorem State.setST_awaiting (t : Rat) : (s.setST t).awaiting = s.awaiting := rfl
@[simp] theorem State.setST_redraw (t : Rat) : (s.setST t).redraw = s.redraw := rfl
@[simp] theorem State.setST_fault (t : Rat) : (s.setST t).fault = s.fault := rfl
@[simp] theorem State.setST_params (t : Rat) : (s.setST t).params = s.params := rfl
@[simp] theorem State.setST_draws (t : Rat) : (s.setST t).draws = s.draws := rfl
@[simp] theorem State.setST_getV (t : Rat) (z : Nibble) : (s.setST t).getV z = s.getV z := rfl
@[simp] theorem State.setST_readByte (t : Rat) (z : Nat) : (s.setST t).readByte z = s.readByte z := rfl
@[simp] theorem State.setST_ea (t : Rat) (z : Nat) : (s.setST t).ea z = s.ea z := rfl
@[simp] theorem State.setST_halted (t : Rat) : (s.setST t).halted = s.halted := rfl

/-! `setAwaiting` -/

@[simp] theorem State.setAwaiting_memory (b : Bool) : (s.setAwaiting b).memory = s.memory := rfl
@[simp] theorem State.setAwaiting_regs (b : Bool) : (s.setAwaiting b).regs = s.regs := rfl
@[simp] theorem State.setAwaiting_index (b : Bool) : (s.setAwaiting b).index = s.index := rfl
@[simp] theorem State.setAwaiting_pc (b : Bool) : (s.setAwaiting b).pc = s.pc := rfl
@[simp] theorem State.setAwaiting_stack (b : Bool) : (s.setAwaiting b).stack = s.stack := rfl
@[simp] theorem State.setAwaiting_screen (b : Bool) : (s.setAwaiting b).screen = s.screen := rfl
@[simp] theorem State.setAwaiting_delayTimer (b : Bool) : (s.setAwaiting b).delayTimer = s.delayTimer := rfl
@[simp] theorem State.setAwaiting_soundTimer (b : Bool) : (s.setAwaiting b).soundTimer = s.soundTimer := rfl
@[simp] theorem State.setAwaiting_keys (b : Bool) : (s.setAwaiting b).keys = s.keys := rfl
@[simp] theorem State.setAwaiting_awaiting (b : Bool) : (s.setAwaiting b).awaiting = b := rfl
@[simp] theorem State.setAwaiting_redraw (b : Bool) : (s.setAwaiting b).redraw = s.redraw := rfl
@[simp] theorem State.setAwaiting_fault (b : Bool) : (s.setAwaiting b).fault = s.fault := rfl
@[simp] theorem State.setAwaiting_params (b : Bool) : (s.setAwaiting b).params = s.params := rfl
@[simp] theorem State.setAwaiting_draws (b : Bool) : (s.setAwaiting b).draws = s.draws := rfl
@[simp] theorem State.setAwaiting_getV (b : Bool) (z : Nibble) : (s.setAwaiting b).getV z = s.getV z := rfl
@[simp] theorem State.setAwaiting_readByte (b : Bool) (z : Nat) : (s.setAwaiting b).readByte z = s.readByte z := rfl
@[simp] theorem State.setAwaiting_ea (b : Bool) (z : Nat) : (s.setAwaiting b).ea z = s.ea z := rfl
@[simp] theorem State.setAwaiting_halted (b : Bool) : (s.setAwaiting b).halted = s.halted := rfl

/-! `drawn` -/

@[simp] theorem State.drawn_memory : (s.drawn).memory = s.memory := rfl
@[simp] theorem State.drawn_regs : (s.drawn).regs = s.regs := rfl
@[simp] theorem State.drawn_index : (s.drawn).index = s.index := rfl
@[simp] theorem State.drawn_pc : (s.drawn).pc = s.pc := rfl
@[simp] theorem State.drawn_stack : (s.drawn).stack = s.stack := rfl
@[simp] theorem State.drawn_screen : (s.drawn).screen = s.screen := rfl
@[simp] theorem State.drawn_delayTimer : (s.drawn).delayTimer = s.delayTimer := rfl
@[simp] theorem State.drawn_soundTimer : (s.drawn).soundTimer = s.soundTimer := rfl
@[simp] theorem State.drawn_keys : (s.drawn).keys = s.keys := rfl
@[simp] theorem State.drawn_awaiting : (s.drawn).awaiting = s.awaiting := rfl
@[simp] theorem State.drawn_redraw : (s.drawn).redraw = s.redraw := rfl
@[simp] theorem State.drawn_fault : (s.drawn).fault = s.fault := rfl
@[simp] theorem State.drawn_params : (s.drawn).params = s.params := rfl
@[simp] theorem State.drawn_draws : (s.drawn).draws = (s.draws + 1) := rfl
@[simp] theorem State.drawn_getV (z : Nibble) : (s.drawn).getV z = s.getV z := rfl
@[simp] theorem State.drawn_readByte (z : Nat) : (s.drawn).readByte z = s.readByte z := rfl
@[simp] theorem State.drawn_ea (z : Nat) : (s.drawn).ea z = s.ea z := rfl
@[simp] theorem State.drawn_halted : (s.drawn).halted = s.halted := rfl

/-! `raise` -/

@[simp] theorem State.raise_memory (c : FaultCode) (n : Nat) : (s.raise c n).memory = s.memory := rfl
@[simp] theorem State.raise_regs (c : FaultCode) (n : Nat) : (s.raise c n).regs = s.regs := rfl
@[simp] theorem State.raise_index (c : FaultCode) (n : Nat) : (s.raise c n).index = s.index := rfl
@[simp] theorem State.raise_pc (c : FaultCode) (n : Nat) : (s.raise c n).pc = s.pc := rfl
@[simp] theorem State.raise_stack (c : FaultCode) (n : Nat) : (s.raise c n).stack = s.stack := rfl
@[simp] theorem State.raise_screen (c : FaultCode) (n : Nat) : (s.raise c n).screen = s.screen := rfl
@[simp] theorem State.raise_delayTimer (c : FaultCode) (n : Nat) : (s.raise c n).delayTimer = s.delayTimer := rfl
@[simp] theorem State.raise_soundTimer (c : FaultCode) (n : Nat) : (s.raise c n).soundTimer = s.soundTimer := rfl
@[simp] theorem State.raise_keys (c : FaultCode) (n : Nat) : (s.raise c n).keys = s.keys := rfl
@[simp] theorem State.raise_awaiting (c : FaultCode) (n : Nat) : (s.raise c n).awaiting = s.awaiting := rfl
@[simp] theorem State.raise_redraw (c : FaultCode) (n : Nat) : (s.raise c n).redraw = s.redraw := rfl
@[simp] theorem State.raise_fault (c : FaultCode) (n : Nat) : (s.raise c n).fault = (some ⟨c, s.pc, n⟩) := rfl
@[simp] theorem State.raise_params (c : FaultCode) (n : Nat) : (s.raise c n).params = s.params := rfl
@[simp] theorem State.raise_draws (c : FaultCode) (n : Nat) : (s.raise c n).draws = s.draws := rfl
@[simp] theorem State.raise_getV (c : FaultCode) (n : Nat) (z : Nibble) : (s.raise c n).getV z = s.getV z := rfl
@[simp] theorem State.raise_readByte (c : FaultCode) (n : Nat) (z : Nat) : (s.raise c n).readByte z = s.readByte z := rfl
@[simp] theorem State.raise_ea (c : FaultCode) (n : Nat) (z : Nat) : (s.raise c n).ea z = s.ea z := rfl

/-! `timerDecay` -/

@[simp] theorem State.timerDecay_memory : (s.timerDecay).memory = s.memory := rfl
@[simp] theorem State.timerDecay_regs : (s.timerDecay).regs = s.regs := rfl
@[simp] theorem State.timerDecay_index : (s.timerDecay).index = s.index := rfl
@[simp] theorem State.timerDecay_pc : (s.timerDecay).pc = s.pc := rfl
@[simp] theorem State.timerDecay_stack : (s.timerDecay).stack = s.stack := rfl
@[simp] theorem State.timerDecay_screen : (s.timerDecay).screen = s.screen := rfl
@[simp] theorem State.timerDecay_delayTimer : (s.timerDecay).delayTimer = (s.params.decay s.delayTimer) := rfl
@[simp] theorem State.timerDecay_soundTimer : (s.timerDecay).soundTimer = (s.params.decay s.soundTimer) := rfl
@[simp] theorem State.timerDecay_keys : (s.timerDecay).keys = s.keys := rfl
@[simp] theorem State.timerDecay_awaiting : (s.timerDecay).awaiting = s.awaiting := rfl
@[simp] theorem State.timerDecay_redraw : (s.timerDecay).redraw = s.redraw := rfl
@[simp] theorem State.timerDecay_fault : (s.timerDecay).fault = s.fault := rfl
@[simp] theorem State.timerDecay_params : (s.timerDecay).params = s.params := rfl
@[simp] theorem State.timerDecay_draws : (s.timerDecay).draws = s.draws := rfl
@[simp] theorem State.timerDecay_getV (z : Nibble) : (s.timerDecay).getV z = s.getV z := rfl
@[simp] theorem State.timerDecay_readByte (z : Nat) : (s.timerDecay).readByte z = s.readByte z := rfl
@[simp] theorem State.timerDecay_ea (z : Nat) : (s.timerDecay).ea z = s.ea z := rfl
@[simp] theorem State.timerDecay_halted : (s.timerDecay).halted = s.halted := rfl

/-! `press` -/

@[simp] theorem State.press_memory (k : Nibble) : (s.press k).memory = s.memory := rfl
@[simp] theorem State.press_regs (k : Nibble) : (s.press k).regs = s.regs := rfl
@[simp] theorem State.press_index (k : Nibble) : (s.press k).index = s.index := rfl
@[simp] theorem State.press_pc (k : Nibble) : (s.press k).pc = s.pc := rfl
@[simp] theorem State.press_stack (k : Nibble) : (s.press k).stack = s.stack := rfl
@[simp] theorem State.press_screen (k : Nibble) : (s.press k).screen = s.screen := rfl
@[simp] theorem State.press_delayTimer (k : Nibble) : (s.press k).delayTimer = s.delayTimer := rfl
@[simp] theorem State.press_soundTimer (k : Nibble) : (s.press k).soundTimer = s.soundTimer := rfl
@[simp] theorem State.press_keys (k : Nibble) : (s.press k).keys = (if k ∈ s.keys then s.keys else s.keys ++ [k]) := rfl
@[simp] theorem State.press_awaiting (k : Nibble) : (s.press k).awaiting = s.awaiting := rfl
@[simp] theorem State.press_redraw (k : Nibble) : (s.press k).redraw = s.redraw := rfl
@[simp] theorem State.press_fault (k : Nibble) : (s.press k).fault = s.fault := rfl
@[simp] theorem State.press_params (k : Nibble) : (s.press k).params = s.params := rfl
@[simp] theorem State.press_draws (k : Nibble) : (s.press k).draws = s.draws := rfl
@[simp] theorem State.press_getV (k : Nibble) (z : Nibble) : (s.press k).getV z = s.getV z := rfl
@[simp] theorem State.press_readByte (k : Nibble) (z : Nat) : (s.press k).readByte z = s.readByte z := rfl
@[simp] theorem State.press_ea (k : Nibble) (z : Nat) : (s.press k).ea z = s.ea z := rfl
@[simp] theorem State.press_halted (k : Nibble) : (s.press k).halted = s.halted := rfl

/-! `release` -/

@[simp] theorem State.release_memory (k : Nibble) : (s.release k).memory = s.memory := rfl
@[simp] theorem State.release_regs (k : Nibble) : (s.release k).regs = s.regs := rfl
@[simp] theorem State.release_index (k : Nibble) : (s.release k).index = s.index := rfl
@[simp] theorem State.release_pc (k : Nibble) : (s.release k).pc = s.pc := rfl
@[simp] theorem State.release_stack (k : Nibble) : (s.release k).stack = s.stack := rfl
@[simp] theorem State.release_screen (k : Nibble) : (s.release k).screen = s.screen := rfl
@[simp] theorem State.release_delayTimer (k : Nibble) : (s.release k).delayTimer = s.delayTimer := rfl
@[simp] theorem State.release_soundTimer (k : Nibble) : (s.release k).soundTimer = s.soundTimer := rfl
@[simp] theorem State.release_keys (k : Nibble) : (s.release k).keys = (s.keys.erase k) := rfl
@[simp] theorem State.release_awaiting (k : Nibble) : (s.release k).awaiting = s.awaiting := rfl
@[simp] theorem State.release_redraw (k : Nibble) : (s.release k).redraw = s.redraw := rfl
@[simp] theorem State.release_fault (k : Nibble) : (s.release k).fault = s.fault := rfl
@[simp] theorem State.release_params (k : Nibble) : (s.release k).params = s.params := rfl
@[simp] theorem State.release_draws (k : Nibble) : (s.release k).draws = s.draws := rfl
@[simp] theorem State.release_getV (k : Nibble) (z : Nibble) : (s.release k).getV z = s.getV z := rfl
@[simp] theorem State.release_readByte (k : Nibble) (z : Nat) : (s.release k).readByte z = s.readByte z := rfl
@[simp] theorem State.release_ea (k : Nibble) (z : Nat) : (s.release k).ea z = s.ea z := rfl
@[simp] theorem State.release_halted (k : Nibble) : (s.release k).halted = s.halted := rfl

/-! `redrawAck` -/

@[simp] theorem State.redrawAck_memory : (s.redrawAck).memory = s.memory := rfl
@[simp] theorem State.redrawAck_regs : (s.redrawAck).regs = s.regs := rfl
@[simp] theorem State.redrawAck_index : (s.redrawAck).index = s.index := rfl
@[simp] theorem State.redrawAck_pc : (s.redrawAck).pc = s.pc := rfl
@[simp] theorem State.redrawAck_stack : (s.redrawAck).stack = s.stack := rfl
@[simp] theorem State.redrawAck_screen : (s.redrawAck).screen = s.screen := rfl
@[simp] theorem State.redrawAck_delayTimer : (s.redrawAck).delayTimer = s.delayTimer := rfl
@[simp] theorem State.redrawAck_soundTimer : (s.redrawAck).soundTimer = s.soundTimer := rfl
@[simp] theorem State.redrawAck_keys : (s.redrawAck).keys = s.keys := rfl
@[simp] theorem State.redrawAck_awaiting : (s.redrawAck).awaiting = s.awaiting := rfl
@[simp] theorem State.redrawAck_redraw : (s.redrawAck).redraw = false := rfl
@[simp] theorem State.redrawAck_fault : (s.redrawAck).fault = s.fault := rfl
@[simp] theorem State.redrawAck_params : (s.redrawAck).params = s.params := rfl
@[simp] theorem State.redrawAck_draws : (s.redrawAck).draws = s.draws := rfl
@[simp] theorem State.redrawAck_getV (z : Nibble) : (s.redrawAck).getV z = s.getV z := rfl
@[simp] theorem State.redrawAck_readByte (z : Nat) : (s.redrawAck).readByte z = s.readByte z := rfl
@[simp] theorem State.redrawAck_ea (z : Nat) : (s.redrawAck).ea z = s.ea z := rfl
@[simp] theorem State.redrawAck_halted : (s.redrawAck).halted = s.halted := rfl

@[simp] theorem State.raise_halted (c : FaultCode) (n : Nat) : (s.raise c n).halted = true := rfl

end Sys2Proof.Machine
end

