-- ==== Sys2Proof/Laws/Memory.lean ====
section
/-! SUPPORT. Memory: a read after a write, and the canonical form kept by every memory operation. -/

namespace Sys2Proof.Machine

variable {font : Vector Byte 80}

theorem Memory.read_cons (a : Nat) (v : Byte) (rest : Memory) (b : Nat)
    (h : ∀ c ∈ rest, a < c.1) :
    Memory.read font (Memory.cons font a v rest) b = if b = a then v else Memory.read font rest b := by
  have fresh : Memory.read font rest a = resetByte font a := by
    induction rest with
    | nil => rfl
    | cons c rest ih =>
      have : a ≠ c.1 := Nat.ne_of_lt (h c (by simp))
      simp [Memory.read, this, ih (fun d hd => h d (by simp [hd]))]
  unfold Memory.cons
  split
  · rename_i hv
    split
    · rename_i hb; rw [hb, fresh, hv]
    · rfl
  · simp [Memory.read]

/-- A read after a write, at the same address or another. -/
theorem Memory.read_write (m : Memory) (h : m.Pairwise (fun c d => c.1 < d.1)) (a : Nat) (v : Byte) (b : Nat) :
    Memory.read font (Memory.write font m a v) b = if b = a then v else Memory.read font m b := by
  induction m with
  | nil => simpa [Memory.write] using Memory.read_cons (font := font) a v [] b (by simp)
  | cons c rest ih =>
    rw [List.pairwise_cons] at h
    simp only [Memory.write]
    split
    · rename_i hlt
      refine Memory.read_cons a v (c :: rest) b ?_
      intro d hd
      rcases List.mem_cons.mp hd with rfl | hd
      · exact hlt
      · exact Nat.lt_trans hlt (h.1 d hd)
    · split
      · rename_i _ heq
        rw [Memory.read_cons a v rest b (by intro d hd; rw [heq]; exact h.1 d hd)]
        by_cases hb : b = a
        · simp [hb]
        · have : b ≠ c.1 := by rw [← heq]; exact hb
          simp [hb, Memory.read, this]
      · rename_i _ hne
        by_cases hb : b = c.1
        · have : b ≠ a := by rw [hb]; exact fun e => hne e.symm
          rw [if_neg this]
          simp [Memory.read, hb]
        · simp [Memory.read, hb, ih h.2]

/-- A write leaves every other address alone, whatever the list. -/
theorem Memory.read_write_other (m : Memory) (a : Nat) (v : Byte) {b : Nat} (hb : b ≠ a) :
    Memory.read font (Memory.write font m a v) b = Memory.read font m b := by
  have one : ∀ rest : Memory, Memory.read font (Memory.cons font a v rest) b = Memory.read font rest b := by
    intro rest
    unfold Memory.cons
    split
    · rfl
    · simp [Memory.read, hb]
  induction m with
  | nil => exact one []
  | cons c rest ih =>
    simp only [Memory.write]
    split
    · exact one _
    · split
      · rename_i _ heq
        have : b ≠ c.1 := by rw [← heq]; exact hb
        rw [one, Memory.read, if_neg this]
      · simp only [Memory.read, ih]

theorem Memory.write_mem (m : Memory) (a : Nat) (v : Byte) (c : Host.Cell)
    (h : c ∈ Memory.write font m a v) : c ∈ m ∨ (c = (a, v) ∧ v ≠ resetByte font a) := by
  have one : ∀ rest : Memory, c ∈ Memory.cons font a v rest → c ∈ rest ∨ (c = (a, v) ∧ v ≠ resetByte font a) := by
    intro rest hc
    unfold Memory.cons at hc
    split at hc
    · exact .inl hc
    · rename_i hv
      rcases List.mem_cons.mp hc with rfl | hc
      · exact .inr ⟨rfl, hv⟩
      · exact .inl hc
  induction m with
  | nil => exact one [] h
  | cons d rest ih =>
    simp only [Memory.write] at h
    split at h
    · exact one _ h
    · split at h
      · rcases one _ h with h | h
        · exact .inl (List.mem_cons_of_mem _ h)
        · exact .inr h
      · rcases List.mem_cons.mp h with rfl | h
        · exact .inl (by simp)
        · rcases ih h with h | h
          · exact .inl (List.mem_cons_of_mem _ h)
          · exact .inr h

theorem Memory.write_pairwise (m : Memory) (h : m.Pairwise (fun c d => c.1 < d.1)) (a : Nat) (v : Byte) :
    (Memory.write font m a v).Pairwise (fun c d => c.1 < d.1) := by
  have one : ∀ rest : Memory, rest.Pairwise (fun c d => c.1 < d.1) → (∀ c ∈ rest, a < c.1) →
      (Memory.cons font a v rest).Pairwise (fun c d => c.1 < d.1) := by
    intro rest hr ha
    unfold Memory.cons
    split
    · exact hr
    · exact List.pairwise_cons.mpr ⟨ha, hr⟩
  induction m with
  | nil => exact one [] h (by simp)
  | cons c rest ih =>
    have h' := List.pairwise_cons.mp h
    simp only [Memory.write]
    split
    · rename_i hlt
      refine one _ h ?_
      intro d hd
      rcases List.mem_cons.mp hd with rfl | hd
      · exact hlt
      · exact Nat.lt_trans hlt (h'.1 d hd)
    · split
      · rename_i _ heq
        exact one _ h'.2 (by intro d hd; rw [heq]; exact h'.1 d hd)
      · rename_i hlt hne
        refine List.pairwise_cons.mpr ⟨?_, ih h'.2⟩
        intro d hd
        rcases Memory.write_mem rest a v d hd with hd | ⟨rfl, _⟩
        · exact h'.1 d hd
        · exact Nat.lt_of_le_of_ne (Nat.le_of_not_lt hlt) (fun e => hne e.symm)

/-- A write inside memory keeps the canonical form. -/
theorem Memory.write_wf (m : Memory) (h : m.wf font) (a : Nat) (v : Byte) (ha : a < memSize) :
    (Memory.write font m a v).wf font := by
  refine ⟨Memory.write_pairwise m h.1 a v, ?_⟩
  intro c hc
  rcases Memory.write_mem m a v c hc with hc | ⟨rfl, hv⟩
  · exact h.2 c hc
  · exact ⟨ha, hv⟩

theorem State.writeByte_wf (s : State) (h : s.memory.wf s.params.font) (a : Nat) (v : Byte) :
    (s.writeByte a v).memory.wf (s.writeByte a v).params.font := by
  simp only [State.writeByte_memory, State.writeByte_params]
  split
  · exact Memory.write_wf _ h a v ‹_›
  · exact h

/-- MemRead after MemWrite. -/
theorem State.readByte_writeByte (s : State) (h : s.memory.wf s.params.font) (a : Nat) (v : Byte) (b : Nat)
    (ha : a < memSize) : (s.writeByte a v).readByte b = if b = a then v else s.readByte b := by
  simp only [State.readByte, State.writeByte_memory, State.writeByte_params, if_pos ha]
  exact Memory.read_write _ h.1 a v b

/-- writeBytes changes memory alone. -/
theorem State.writeBytes_eq (s : State) (a : Nat) (vs : List Byte) :
    s.writeBytes a vs = { s with memory := (s.writeBytes a vs).memory } := by
  induction vs generalizing s a with
  | nil => rfl
  | cons v vs ih => rw [State.writeBytes, ih]; rfl

theorem State.writeBytes_wf (s : State) (h : s.memory.wf s.params.font) (a : Nat) (vs : List Byte) :
    (s.writeBytes a vs).memory.wf s.params.font := by
  induction vs generalizing s a with
  | nil => exact h
  | cons v vs ih => exact ih (s.writeByte a v) (State.writeByte_wf s h a v) (a + 1)

theorem State.readByte_writeByte_other (s : State) (a : Nat) (v : Byte) {b : Nat} (hb : b ≠ a) :
    (s.writeByte a v).readByte b = s.readByte b := by
  simp only [State.readByte, State.writeByte_memory, State.writeByte_params]
  split
  · exact Memory.read_write_other _ a v hb
  · rfl

/-- writeBytes leaves every byte outside its range alone. -/
theorem State.readByte_writeBytes_other (s : State) (a : Nat) (vs : List Byte) {b : Nat}
    (hb : ¬ (a ≤ b ∧ b < a + vs.length)) : (s.writeBytes a vs).readByte b = s.readByte b := by
  induction vs generalizing s a with
  | nil => rfl
  | cons v vs ih =>
    simp only [List.length_cons] at hb
    rw [State.writeBytes, ih _ (a + 1) (by omega), State.readByte_writeByte_other s a v (by omega)]

/-- A read after writeBytes: the byte written at that place, or what was there. -/
theorem State.readByte_writeBytes (s : State) (h : s.memory.wf s.params.font) (a : Nat) (vs : List Byte) (b : Nat)
    (hin : a + vs.length ≤ memSize) :
    (s.writeBytes a vs).readByte b = if a ≤ b then vs.getD (b - a) (s.readByte b) else s.readByte b := by
  induction vs generalizing s a with
  | nil => simp [State.writeBytes]
  | cons v vs ih =>
    have hlen : a + 1 + vs.length ≤ memSize := by simp at hin; omega
    rw [State.writeBytes, ih _ (State.writeByte_wf s h a v) (a + 1) hlen,
      State.readByte_writeByte s h a v b (by simp at hin; omega)]
    by_cases h1 : a + 1 ≤ b
    · have e : b - a = (b - (a + 1)) + 1 := by omega
      have : b ≠ a := by omega
      simp [h1, this, e, show a ≤ b by omega]
    · by_cases h2 : b = a
      · subst h2; simp
      · simp [h1, h2, show ¬ a ≤ b by omega]

/-! The fields and reads that writeBytes leaves alone. -/

section
variable (s : State) (a : Nat) (vs : List Byte)

@[simp] theorem State.writeBytes_regs : (s.writeBytes a vs).regs = s.regs := by rw [State.writeBytes_eq]
@[simp] theorem State.writeBytes_index : (s.writeBytes a vs).index = s.index := by rw [State.writeBytes_eq]
@[simp] theorem State.writeBytes_pc : (s.writeBytes a vs).pc = s.pc := by rw [State.writeBytes_eq]
@[simp] theorem State.writeBytes_stack : (s.writeBytes a vs).stack = s.stack := by rw [State.writeBytes_eq]
@[simp] theorem State.writeBytes_screen : (s.writeBytes a vs).screen = s.screen := by rw [State.writeBytes_eq]
@[simp] theorem State.writeBytes_delayTimer : (s.writeBytes a vs).delayTimer = s.delayTimer := by rw [State.writeBytes_eq]
@[simp] theorem State.writeBytes_soundTimer : (s.writeBytes a vs).soundTimer = s.soundTimer := by rw [State.writeBytes_eq]
@[simp] theorem State.writeBytes_keys : (s.writeBytes a vs).keys = s.keys := by rw [State.writeBytes_eq]
@[simp] theorem State.writeBytes_awaiting : (s.writeBytes a vs).awaiting = s.awaiting := by rw [State.writeBytes_eq]
@[simp] theorem State.writeBytes_redraw : (s.writeBytes a vs).redraw = s.redraw := by rw [State.writeBytes_eq]
@[simp] theorem State.writeBytes_fault : (s.writeBytes a vs).fault = s.fault := by rw [State.writeBytes_eq]
@[simp] theorem State.writeBytes_params : (s.writeBytes a vs).params = s.params := by rw [State.writeBytes_eq]
@[simp] theorem State.writeBytes_draws : (s.writeBytes a vs).draws = s.draws := by rw [State.writeBytes_eq]
@[simp] theorem State.writeBytes_getV (z : Nibble) : (s.writeBytes a vs).getV z = s.getV z := by
  rw [State.writeBytes_eq]; rfl
@[simp] theorem State.writeBytes_ea (k : Nat) : (s.writeBytes a vs).ea k = s.ea k := by
  rw [State.writeBytes_eq]; rfl
@[simp] theorem State.writeBytes_halted : (s.writeBytes a vs).halted = s.halted := by
  rw [State.writeBytes_eq]; rfl

end

end Sys2Proof.Machine
end

