-- ==== Sys2Proof/Laws/Registers.lean ====
section
/-! SUPPORT. Registers: a read after a write, the block load, and WriteRF. -/

namespace Sys2Proof.Machine

variable (s : State)

/-- A register read after a register write. -/
theorem State.getV_setV (x z : Nibble) (v : Byte) : (s.setV x v).getV z = if z = x then v else s.getV z := by
  simp only [State.getV, State.setV_regs, Vector.getElem_set, BitVec.toNat_inj]
  by_cases h : z = x
  · simp [h]
  · simp [h, Ne.symm h]

@[simp] theorem State.getV_setV_same (x : Nibble) (v : Byte) : (s.setV x v).getV x = v := by
  simp [State.getV_setV]

theorem State.getV_setV_other {x z : Nibble} (v : Byte) (h : z ≠ x) : (s.setV x v).getV z = s.getV z := by
  simp [State.getV_setV, h]

/-- R145: V0 to Vx hold the bytes from I on, the registers above x are unchanged. -/
theorem State.getV_loadUpTo (x z : Nibble) :
    (s.loadUpTo x).getV z = if z ≤ x then s.readByte (s.ea z.toNat) else s.getV z := by
  simp [State.getV, State.loadUpTo, BitVec.le_def]

/-- R144: the bytes STM stores. -/
theorem State.length_regsUpTo (x : Nibble) : (s.regsUpTo x).length = x.toNat + 1 := by
  have : x.toNat < 16 := x.isLt
  simp [State.regsUpTo]; omega

theorem State.regsUpTo_getD (x : Nibble) (k : Nat) (d : Byte) :
    (s.regsUpTo x).getD k d = if h : k ≤ x.toNat then s.regs[k]'(by have := x.isLt; omega) else d := by
  have hx : x.toNat < 16 := x.isLt
  by_cases h : k ≤ x.toNat
  · have : k < 16 := by omega
    simp [State.regsUpTo, List.getD_eq_getElem?_getD, h, show k < x.toNat + 1 by omega, this]
  · have : (s.regsUpTo x).length ≤ k := by rw [State.length_regsUpTo]; omega
    simp [List.getD_eq_getElem?_getD, List.getElem?_eq_none this, h]

/-- WriteRF writes registers alone (R119). -/
theorem State.writeRF_eq (x : Nibble) (r f : Byte) :
    s.writeRF x r f = { s with regs := (s.writeRF x r f).regs } := by
  unfold State.writeRF
  split
  · rfl
  · split <;> rfl

theorem State.writeRF_readByte (x : Nibble) (r f : Byte) (a : Nat) : (s.writeRF x r f).readByte a = s.readByte a := by
  rw [State.writeRF_eq]; rfl

/-- The result in Vx and the flag in VF, when the destination is not VF (R119). -/
theorem State.writeRF_getV (x : Nibble) (r f : Byte) (hx : x ≠ vf) (z : Nibble) :
    (s.writeRF x r f).getV z = if z = vf then f else if z = x then r else s.getV z := by
  simp [State.writeRF, hx, State.getV_setV]

/-- VF as the destination: the parameter decides (R119). -/
theorem State.writeRF_vf_getV (r f : Byte) (z : Nibble) :
    (s.writeRF vf r f).getV z =
      if z = vf then (match s.params.vfDestOrder with | .flagLast => f | .resultLast => r) else s.getV z := by
  unfold State.writeRF
  cases h : s.params.vfDestOrder <;> simp [State.getV_setV]

/-- Whichever the destination, a register other than Vx and VF is left alone. -/
theorem State.writeRF_getV_other (x : Nibble) (r f : Byte) {z : Nibble} (hx : z ≠ x) (hf : z ≠ vf) :
    (s.writeRF x r f).getV z = s.getV z := by
  by_cases h : x = vf
  · subst h; simp [State.writeRF_vf_getV, hf]
  · simp [State.writeRF_getV _ _ _ _ h, hx, hf]

end Sys2Proof.Machine
end

