-- ==== Sys2Proof/Laws/Operands.lean ====
section
/-! SUPPORT. The shared operand forms: the range check of the one addressing mode, key tests, BCD digits. -/

namespace Sys2Proof.Machine

variable (s : State)

/-- The check of R139 in closed form: nothing is out of range. -/
theorem State.lowestBadEA_eq_none_iff (n : Nat) :
    s.lowestBadEA n = none ↔ n = 0 ∨ s.index.toNat + n ≤ memSize := by
  simp only [State.lowestBadEA, List.find?_eq_none, List.mem_map, List.mem_range, State.ea, decide_eq_true_eq,
    forall_exists_index, and_imp, forall_apply_eq_imp_iff₂, Nat.not_le]
  constructor
  · intro h
    rcases Nat.eq_zero_or_pos n with rfl | hn
    · exact .inl rfl
    · have := h (n - 1) (by omega); right; omega
  · rintro (rfl | h) k hk <;> omega

/-- The check of R139 in closed form: the lowest out-of-range address is I itself or the end of memory. -/
theorem State.lowestBadEA_eq_some_iff (n a : Nat) :
    s.lowestBadEA n = some a ↔ n ≠ 0 ∧ memSize < s.index.toNat + n ∧ a = max s.index.toNat memSize := by
  have find : ∀ (m i : Nat), ((List.range' i m).map (s.index.toNat + ·)).find? (fun a => decide (memSize ≤ a)) =
      if m ≠ 0 ∧ memSize < s.index.toNat + i + m then some (max (s.index.toNat + i) memSize) else none := by
    intro m
    induction m with
    | zero => intro i; simp
    | succ m ih =>
      intro i
      rw [List.range'_succ, List.map_cons, List.find?_cons, ih (i + 1)]
      by_cases h : memSize ≤ s.index.toNat + i
      · simp only [h, decide_true]
        rw [if_pos (by omega)]; congr 1; omega
      · simp only [h, decide_false]
        by_cases h2 : memSize < s.index.toNat + i + (m + 1)
        · rw [if_pos (by omega), if_pos (by omega)]; congr 1; omega
        · rw [if_neg (by omega), if_neg (by omega)]
  have h := find n 0
  rw [← List.range_eq_range'] at h
  unfold State.lowestBadEA
  rw [show s.ea = (s.index.toNat + ·) from rfl, h]
  simp only [Nat.add_zero]
  split
  · simp_all [eq_comm]
  · simp; omega

/-- All accesses in range: the instruction is done. -/
theorem State.accessing_ok (n : Nat) (done : State) (h : n = 0 ∨ s.index.toNat + n ≤ memSize) :
    s.accessing n done = .next done := by
  simp [State.accessing, (State.lowestBadEA_eq_none_iff s n).mpr h]

/-- One access out of range: MemoryOutOfRange, and nothing else. -/
theorem State.accessing_bad (n : Nat) (done : State) (hn : n ≠ 0) (h : memSize < s.index.toNat + n) :
    s.accessing n done = .next (s.raise .memoryOutOfRange (max s.index.toNat memSize)) := by
  simp [State.accessing, (State.lowestBadEA_eq_some_iff s n _).mpr ⟨hn, h, rfl⟩]

/-- Everything an accessing instruction can do. -/
theorem State.accessing_cases (n : Nat) (done t : State) (h : s.accessing n done = .next t) :
    t = done ∨ t = s.raise .memoryOutOfRange (max s.index.toNat memSize) := by
  by_cases hn : n = 0 ∨ s.index.toNat + n ≤ memSize
  · rw [State.accessing_ok s n done hn] at h; cases h; exact .inl rfl
  · rw [State.accessing_bad s n done (by omega) (by omega)] at h; cases h; exact .inr rfl

/-- A byte is held exactly when it is the code of a key in the set (R170). -/
theorem State.keyHeld_iff (v : Byte) : s.keyHeld v = true ↔ ∃ k ∈ s.keys, k.toNat = v.toNat := by
  simp only [State.keyHeld, List.any_eq_true, beq_iff_eq]
  refine exists_congr fun k => and_congr_right fun _ => ?_
  rw [← BitVec.toNat_inj]
  have : k.toNat < 16 := k.isLt
  simp; omega

@[simp] theorem length_bcdDigits (v : Byte) : (bcdDigits v).length = 3 := rfl

/-- The digits of a byte, back in one number (R143). -/
theorem bcdDigits_value (v : Byte) :
    (bcdDigits v).map BitVec.toNat = [v.toNat / 100, v.toNat / 10 % 10, v.toNat % 10] := by
  have : v.toNat < 256 := v.isLt
  simp [bcdDigits]; omega

end Sys2Proof.Machine
end

