-- ==== Sys2Proof/Laws/Display.lean ====
section
/-! SUPPORT. Sprite drawing: the loops of R161 as one pass over the sprite's set pixels, and what such a pass does. -/

namespace Sys2Proof.Machine

/-- The pixels of the set bits of a sprite, in the order R161 visits them. -/
def spritePixels (vx vy : Byte) (sprite : Nat → Byte) (n : Nat) : List Nat :=
  (List.range n).flatMap fun row =>
    ((List.range 8).filter (spriteBit (sprite row))).map (pixelAddr vx vy row)

theorem mem_spritePixels (vx vy : Byte) (sprite : Nat → Byte) (n p : Nat) :
    p ∈ spritePixels vx vy sprite n ↔
      ∃ row < n, ∃ col < 8, spriteBit (sprite row) col = true ∧ pixelAddr vx vy row col = p := by
  simp [spritePixels, and_assoc]

theorem pixelAddr_lt (vx vy : Byte) (row col : Nat) : pixelAddr vx vy row col < 2048 :=
  Nat.mod_lt _ (by decide)

/-- One row is a pass over its set pixels. -/
theorem Drawing.row_eq_foldl (vx vy : Byte) (sprite : Nat → Byte) (d : Drawing) (row : Nat) :
    Drawing.row vx vy sprite d row =
      (((List.range 8).filter (spriteBit (sprite row))).map (pixelAddr vx vy row)).foldl Drawing.flip d := by
  unfold Drawing.row
  generalize List.range 8 = cols
  induction cols generalizing d with
  | nil => rfl
  | cons col cols ih =>
    rw [List.foldl_cons, ih]
    by_cases h : spriteBit (sprite row) col = true
    · simp [Drawing.bit, h]
    · simp [Drawing.bit, h]

/-- A sprite is a pass over its set pixels. -/
theorem Drawing.rows_eq_foldl (vx vy : Byte) (sprite : Nat → Byte) (n : Nat) (d : Drawing) :
    Drawing.rows vx vy sprite n d = (spritePixels vx vy sprite n).foldl Drawing.flip d := by
  unfold Drawing.rows spritePixels
  generalize List.range n = rows
  induction rows generalizing d with
  | nil => rfl
  | cons row rows ih => rw [List.foldl_cons, ih, Drawing.row_eq_foldl, List.flatMap_cons, List.foldl_append]

theorem Drawing.flip_screen (d : Drawing) (p q : Nat) (hq : q < 2048) :
    (d.flip p).screen.getLsbD q = (d.screen.getLsbD q ^^ decide (q = p)) := by
  simp [Drawing.flip, hq, eq_comm]

/-- A pass over pixels no two of which are the same inverts exactly them, and hits iff one of them was set. -/
theorem Drawing.foldl_flip (ps : List Nat) (hn : ps.Nodup) (hp : ∀ p ∈ ps, p < 2048) (d : Drawing) :
    (∀ q < 2048, (ps.foldl Drawing.flip d).screen.getLsbD q = (d.screen.getLsbD q ^^ decide (q ∈ ps))) ∧
    (ps.foldl Drawing.flip d).hit = (d.hit || ps.any d.screen.getLsbD) := by
  induction ps generalizing d with
  | nil => simp
  | cons p ps ih =>
    rw [List.nodup_cons] at hn
    obtain ⟨scr, hit⟩ := ih hn.2 (fun q hq => hp q (by simp [hq])) (d.flip p)
    refine ⟨fun q hq => ?_, ?_⟩
    · rw [List.foldl_cons, scr q hq, Drawing.flip_screen d p q hq]
      by_cases h : q = p
      · subst h; simp [hn.1]
      · simp [h]
    · have same : ps.any (d.flip p).screen.getLsbD = ps.any d.screen.getLsbD := by
        rw [Bool.eq_iff_iff, List.any_eq_true, List.any_eq_true]
        refine exists_congr fun q => and_congr_right fun hq => ?_
        rw [Drawing.flip_screen d p q (hp q (by simp [hq]))]
        have : q ≠ p := fun e => hn.1 (e ▸ hq)
        simp [this]
      rw [List.foldl_cons, hit, same]
      simp [Drawing.flip, Bool.or_assoc]

end Sys2Proof.Machine
end

