-- ==== Sys2Proof/Laws/Encoding.lean ====
section
/-! SUPPORT. The fields of a word built from fields, and a word built from its own fields. -/

namespace Sys2Proof

variable (f x y n : Nibble) (nn : Byte) (nnn : Addr) (w : Word)

/-! The bits of the four shapes, and of a word built from bytes. -/

theorem formNNN_bit (i : Nat) :
    (formNNN f nnn).getLsbD i = if i < 12 then nnn.getLsbD i else f.getLsbD (i - 12) :=
  BitVec.getLsbD_append

theorem formXNN_bit (i : Nat) :
    (formXNN f x nn).getLsbD i =
      if i < 8 then nn.getLsbD i else if i < 12 then x.getLsbD (i - 8) else f.getLsbD (i - 12) := by
  refine BitVec.getLsbD_append.trans ?_
  split
  · rfl
  · refine BitVec.getLsbD_append.trans ?_
    by_cases h : i < 12
    · rw [if_pos h, if_pos (by omega)]
    · rw [if_neg h, if_neg (by omega), show i - 8 - 4 = i - 12 by omega]

theorem formXYN_bit (i : Nat) :
    (formXYN f x y n).getLsbD i =
      if i < 4 then n.getLsbD i else if i < 8 then y.getLsbD (i - 4)
      else if i < 12 then x.getLsbD (i - 8) else f.getLsbD (i - 12) := by
  refine BitVec.getLsbD_append.trans ?_
  split
  · rfl
  · refine BitVec.getLsbD_append.trans ?_
    by_cases h : i < 8
    · rw [if_pos h, if_pos (by omega)]
    · rw [if_neg h, if_neg (by omega)]
      refine BitVec.getLsbD_append.trans ?_
      by_cases h2 : i < 12
      · rw [if_pos h2, if_pos (by omega), show i - 4 - 4 = i - 8 by omega]
      · rw [if_neg h2, if_neg (by omega), show i - 4 - 4 - 4 = i - 12 by omega]

theorem wordOfBytes_bit (hi lo : Byte) (i : Nat) :
    (wordOfBytes hi lo).getLsbD i = if i < 8 then lo.getLsbD i else hi.getLsbD (i - 8) :=
  BitVec.getLsbD_append

/-! The fields of a word built from fields. -/

@[simp] theorem wordFamily_formNNN : wordFamily (formNNN f nnn) = f :=
  BitVec.eq_of_getLsbD_eq fun i hi => by simp [wordFamily, formNNN_bit, hi]

@[simp] theorem wordNNN_formNNN : wordNNN (formNNN f nnn) = nnn :=
  BitVec.eq_of_getLsbD_eq fun i hi => by simp [wordNNN, formNNN_bit, hi]

@[simp] theorem wordFamily_formXNN : wordFamily (formXNN f x nn) = f :=
  BitVec.eq_of_getLsbD_eq fun i hi => by simp [wordFamily, formXNN_bit, hi, show ¬ 12 + i < 8 by omega]

@[simp] theorem wordX_formXNN : wordX (formXNN f x nn) = x :=
  BitVec.eq_of_getLsbD_eq fun i hi => by simp [wordX, formXNN_bit, hi, show 8 + i < 12 by omega]

@[simp] theorem wordNN_formXNN : wordNN (formXNN f x nn) = nn :=
  BitVec.eq_of_getLsbD_eq fun i hi => by simp [wordNN, formXNN_bit, hi]

@[simp] theorem wordFamily_formXYN : wordFamily (formXYN f x y n) = f :=
  BitVec.eq_of_getLsbD_eq fun i hi => by
    simp [wordFamily, formXYN_bit, hi, show ¬ 12 + i < 4 by omega, show ¬ 12 + i < 8 by omega]

@[simp] theorem wordX_formXYN : wordX (formXYN f x y n) = x :=
  BitVec.eq_of_getLsbD_eq fun i hi => by
    simp [wordX, formXYN_bit, hi, show ¬ 8 + i < 4 by omega, show 8 + i < 12 by omega]

@[simp] theorem wordY_formXYN : wordY (formXYN f x y n) = y :=
  BitVec.eq_of_getLsbD_eq fun i hi => by simp [wordY, formXYN_bit, hi, show 4 + i < 8 by omega]

@[simp] theorem wordN_formXYN : wordN (formXYN f x y n) = n :=
  BitVec.eq_of_getLsbD_eq fun i hi => by simp [wordN, formXYN_bit, hi]

/-! A word built from its own fields. -/

theorem formNNN_fields : formNNN (wordFamily w) (wordNNN w) = w := by
  refine BitVec.eq_of_getLsbD_eq fun i hi => ?_
  rw [formNNN_bit]
  split
  · rename_i h; simp [wordNNN, h]
  · rename_i h; simp [wordFamily, show i - 12 < 4 by omega, show 12 + (i - 12) = i by omega]

theorem formXNN_fields : formXNN (wordFamily w) (wordX w) (wordNN w) = w := by
  refine BitVec.eq_of_getLsbD_eq fun i hi => ?_
  rw [formXNN_bit]
  split
  · rename_i h; simp [wordNN, h]
  · split
    · simp [wordX, show i - 8 < 4 by omega, show 8 + (i - 8) = i by omega]
    · simp [wordFamily, show i - 12 < 4 by omega, show 12 + (i - 12) = i by omega]

theorem formXYN_fields : formXYN (wordFamily w) (wordX w) (wordY w) (wordN w) = w := by
  refine BitVec.eq_of_getLsbD_eq fun i hi => ?_
  rw [formXYN_bit]
  split
  · rename_i h; simp [wordN, h]
  · split
    · simp [wordY, show i - 4 < 4 by omega, show 4 + (i - 4) = i by omega]
    · split
      · simp [wordX, show i - 8 < 4 by omega, show 8 + (i - 8) = i by omega]
      · simp [wordFamily, show i - 12 < 4 by omega, show 12 + (i - 12) = i by omega]

/-- A word split into its bytes and joined again (R52). -/
@[simp] theorem wordOfBytes_hi_lo : wordOfBytes (wordHi w) (wordLo w) = w := by
  refine BitVec.eq_of_getLsbD_eq fun i hi => ?_
  rw [wordOfBytes_bit]
  split
  · rename_i h; simp [wordLo, h]
  · simp [wordHi, show i - 8 < 8 by omega, show 8 + (i - 8) = i by omega]

/-- 0NNN read as a number is NNN: the word of SYS (R101). -/
theorem formNNN_zero : formNNN 0 nnn = nnn.setWidth 16 := by
  refine BitVec.eq_of_getLsbD_eq fun i hi => ?_
  rw [formNNN_bit]
  split
  · rename_i h; simp [hi]
  · rename_i h; simp [show 12 ≤ i by omega]

/-- A word's value from its bytes (R52). -/
theorem wordOfBytes_toNat (hi lo : Byte) : (wordOfBytes hi lo).toNat = 256 * hi.toNat + lo.toNat := by
  rw [wordOfBytes, BitVec.toNat_append, ← Nat.shiftLeft_add_eq_or_of_lt lo.isLt, Nat.shiftLeft_eq, Nat.mul_comm]

end Sys2Proof
end

