-- ==== Sys2Proof/Laws/Flags.lean ====
section
/-! SUPPORT. What the flag values and the font product are, as numbers. -/

namespace Sys2Proof.Machine

/-- SHR's flag is the bit shifted out, as 0 or 1 (R128). -/
theorem shrFlag_eq (v : Byte) : shrFlag v = BitVec.ofNat 8 (v.toNat % 2) := by
  apply BitVec.eq_of_toNat_eq
  simp [shrFlag]
  omega

/-- SHL's flag is the bit shifted out, in place (R130). -/
theorem shlFlag_eq : ∀ v : Byte, shlFlag v = if 128 ≤ v.toNat then 0x80 else 0x00 := by decide

/-- FX29's product as a number, in the width the parameter gives (R142). -/
theorem fontProduct_toNat (w : FontMulWidth) (v : Byte) :
    (fontProduct w v).toNat = match w with | .w16 => 5 * v.toNat | .w8 => 5 * v.toNat % 256 := by
  cases w <;> simp [fontProduct] <;> omega

end Sys2Proof.Machine
end

