-- ==== Sys2Proof/Laws/Float.lean ====
section
/-! SUPPORT. What the timer arithmetic does, in terms of rational numbers: exact operations, rounding to a format, the
decay and the read. -/

namespace Sys2Proof

/-! ### Exact operations -/

theorem exactSub_eq (a b : Rat) : exactSub a b = a - b := (Rat.sub_def' a b).symm

theorem exactDiv_eq (a b : Rat) (hb : 0 < b) : exactDiv a b = a / b := by
  have hn : 0 < b.num := Rat.num_pos.mpr hb
  have hz : ((b.num.toNat : Int)) = b.num := Int.toNat_of_nonneg hn.le
  have hb' : b = b.num / b.den := (Rat.num_div_den b).symm
  have ha' : a = a.num / a.den := (Rat.num_div_den a).symm
  unfold exactDiv
  rw [Rat.mkRat_eq_div]
  have hnn : (b.num.toNat : ℚ) = (b.num : ℚ) := by exact_mod_cast congrArg (Int.cast (R := ℚ)) hz
  have h1 : (a.den : ℚ) ≠ 0 := by exact_mod_cast a.den_nz
  have h2 : (b.den : ℚ) ≠ 0 := by exact_mod_cast b.den_nz
  have h3 : (b.num : ℚ) ≠ 0 := by exact_mod_cast hn.ne'
  conv_rhs => rw [hb', ha']
  push_cast
  rw [hnn]
  field_simp

/-! ### Division to the nearest natural number -/

theorem divNearest_le {ties : RoundTies} {n d k : Nat} (hd : 0 < d) (h : n ≤ k * d) : divNearest ties n d ≤ k := by
  have hq : n / d ≤ k := by rw [Nat.div_le_iff_le_mul hd]; omega
  rcases Nat.lt_or_eq_of_le hq with hlt | heq
  · unfold divNearest
    split
    · omega
    · split
      · omega
      · cases ties <;> simp <;> omega
  · have hm : n % d = 0 := by
      have := Nat.div_add_mod n d
      rw [heq, Nat.mul_comm] at this
      omega
    simp [divNearest, hm, hd, heq]

theorem le_divNearest {ties : RoundTies} {n d k : Nat} (hd : 0 < d) (h : k * d ≤ n) : k ≤ divNearest ties n d := by
  have hq : k ≤ n / d := (Nat.le_div_iff_mul_le hd).mpr h
  unfold divNearest
  split
  · exact hq
  · split
    · omega
    · cases ties <;> simp <;> omega

theorem divNearest_of_lt_half {ties : RoundTies} {n d : Nat} (h : 2 * n < d) : divNearest ties n d = 0 := by
  have hlt : n < d := by omega
  simp [divNearest, Nat.mod_eq_of_lt hlt, Nat.div_eq_of_lt hlt, h]

/-- The nearest natural number is at most a half away, and at a tie it is the one `ties` asks for. -/
theorem divNearest_spec {ties : RoundTies} {n d : Nat} (hd : 0 < d) :
    2 * n ≤ (2 * divNearest ties n d + 1) * d ∧ 2 * divNearest ties n d * d ≤ 2 * n + d ∧
    (2 * n = (2 * divNearest ties n d + 1) * d → ties = .toEven ∧ divNearest ties n d % 2 = 0) ∧
    (2 * n + d = 2 * divNearest ties n d * d → ties = .awayFromZero ∨ divNearest ties n d % 2 = 0) := by
  have h := Nat.div_add_mod n d
  have hm := Nat.mod_lt n hd
  unfold divNearest
  generalize n / d = q at *
  generalize n % d = r at *
  subst h
  have e : ∀ m : Nat, m * d = d * m := fun m => Nat.mul_comm _ _
  split
  · refine ⟨by nlinarith, by nlinarith, fun h => ?_, fun h => ?_⟩ <;> exfalso <;> nlinarith
  · split
    · refine ⟨by nlinarith, by nlinarith, fun h => ?_, fun h => ?_⟩ <;> exfalso <;> nlinarith
    · have hr : 2 * r = d := by omega
      subst hr
      cases ties
      · simp only []
        refine ⟨by nlinarith, by nlinarith, fun h => ?_, fun h => .inl trivial⟩; exfalso; nlinarith
      · simp only []
        rcases Nat.mod_two_eq_zero_or_one q with hq | hq <;> rw [hq]
        · refine ⟨by nlinarith, by nlinarith, fun h => ⟨trivial, by omega⟩, fun h => ?_⟩; exfalso; nlinarith
        · refine ⟨by nlinarith, by nlinarith, fun h => ⟨trivial, by omega⟩, fun h => .inr (by omega)⟩

/-! ### Powers of two -/

theorem two_zpow_eq (q : Int) : (2 : ℚ) ^ q = (2 ^ q.toNat : ℚ) / 2 ^ (-q).toNat := by
  rcases le_total 0 q with h | h
  · have : (-q).toNat = 0 := by omega
    rw [this, pow_zero, div_one, ← zpow_natCast, Int.toNat_of_nonneg h]
  · have h1 : q.toNat = 0 := by omega
    have h2 : (((-q).toNat : Nat) : Int) = -q := Int.toNat_of_nonneg (by omega)
    rw [h1, pow_zero, ← zpow_natCast, h2, zpow_neg, one_div, inv_inv]

theorem abs_eq_natAbs_div (x : Rat) : |x| = (x.num.natAbs : ℚ) / x.den := by
  rw [Rat.abs_def, Rat.divInt_eq_div, Int.cast_natCast, Int.cast_natCast]

/-- ⌊log2⌋ is what its name says. -/
theorem floorLog2_spec {n d : Nat} (hn : 0 < n) (hd : 0 < d) :
    (2 : ℚ) ^ floorLog2 n d ≤ (n : ℚ) / d ∧ (n : ℚ) / d < 2 ^ (floorLog2 n d + 1) := by
  have hdq : (0 : ℚ) < d := by exact_mod_cast hd
  have n1 : 2 ^ n.log2 ≤ n := Nat.log2_self_le hn.ne'
  have n2 : n < 2 ^ (n.log2 + 1) := Nat.lt_log2_self
  have d1 : 2 ^ d.log2 ≤ d := Nat.log2_self_le hd.ne'
  have d2 : d < 2 ^ (d.log2 + 1) := Nat.lt_log2_self
  have two : (2 : ℚ) ≠ 0 := two_ne_zero
  generalize hk : ((n.log2 : Int) - (d.log2 : Int)) = k
  have upper : (n : ℚ) / d < 2 ^ (k + 1) := by
    rw [div_lt_iff₀ hdq]
    have e : (2 : ℚ) ^ (n.log2 + 1) = 2 ^ (k + 1) * 2 ^ d.log2 := by
      rw [← zpow_natCast, ← zpow_natCast (2 : ℚ) d.log2, ← zpow_add₀ two]; congr 1; push_cast; omega
    calc (n : ℚ) < 2 ^ (n.log2 + 1) := by exact_mod_cast n2
      _ = 2 ^ (k + 1) * 2 ^ d.log2 := e
      _ ≤ 2 ^ (k + 1) * d := by gcongr; exact_mod_cast d1
  have lower : (2 : ℚ) ^ (k - 1) ≤ (n : ℚ) / d := by
    rw [le_div_iff₀ hdq]
    have e : (2 : ℚ) ^ (k - 1) * 2 ^ (d.log2 + 1) = 2 ^ n.log2 := by
      rw [← zpow_natCast, ← zpow_natCast (2 : ℚ) n.log2, ← zpow_add₀ two]; congr 1; push_cast; omega
    calc (2 : ℚ) ^ (k - 1) * d ≤ 2 ^ (k - 1) * 2 ^ (d.log2 + 1) := by gcongr; exact_mod_cast d2.le
      _ = 2 ^ n.log2 := e
      _ ≤ n := by exact_mod_cast n1
  have test : d * 2 ^ k.toNat ≤ n * 2 ^ (-k).toNat ↔ (2 : ℚ) ^ k ≤ (n : ℚ) / d := by
    rw [two_zpow_eq, div_le_div_iff₀ (by positivity) hdq, mul_comm (2 ^ k.toNat : ℚ)]
    exact_mod_cast Iff.rfl
  simp only [floorLog2, hk]
  split
  · exact ⟨test.mp ‹_›, upper⟩
  · refine ⟨lower, ?_⟩
    rw [Int.sub_add_cancel]
    exact lt_of_not_ge fun h => ‹¬ _› (test.mpr h)

/-! ### Rounding to a format -/

variable (f : TimerFormat)

/-- The spacing of the format's numbers around x. -/
def TimerFormat.spacingAt (x : Rat) : Int := f.spacing x.num.natAbs x.den

/-- The rounded significand of x. -/
def TimerFormat.significand (x : Rat) : Nat :=
  divNearest .toEven (x.num.natAbs * 2 ^ (-f.spacingAt x).toNat) (x.den * 2 ^ (f.spacingAt x).toNat)

theorem TimerFormat.one_le_precision : 1 ≤ f.precision := by cases f <;> decide

/-- A rounded number is its sign, an integer significand and a power of two. -/
theorem TimerFormat.round_eq (x : Rat) :
    f.round x = (x.num.sign : ℚ) * f.significand x * 2 ^ f.spacingAt x := by
  unfold TimerFormat.round
  simp only []
  rw [Rat.mkRat_eq_div, two_zpow_eq]
  simp only [TimerFormat.significand, TimerFormat.spacingAt]
  push_cast
  ring

@[simp] theorem TimerFormat.round_zero : f.round 0 = 0 := by
  rw [TimerFormat.round_eq]; simp

theorem TimerFormat.round_of_pos {x : Rat} (hx : 0 < x) : f.round x = f.significand x * 2 ^ f.spacingAt x := by
  rw [TimerFormat.round_eq, Int.sign_eq_one_of_pos (Rat.num_pos.mpr hx)]; simp

theorem TimerFormat.round_of_neg {x : Rat} (hx : x < 0) : f.round x = -(f.significand x * 2 ^ f.spacingAt x) := by
  rw [TimerFormat.round_eq, Int.sign_eq_neg_one_of_neg (Rat.num_neg.mpr hx)]; simp

theorem TimerFormat.abs_round (x : Rat) : |f.round x| = if x = 0 then 0 else (f.significand x : ℚ) * 2 ^ f.spacingAt x := by
  have pos : (0 : ℚ) ≤ f.significand x * 2 ^ f.spacingAt x := by positivity
  split
  · rename_i h; subst h; simp
  · rename_i h
    rcases lt_or_gt_of_ne h with h | h
    · rw [TimerFormat.round_of_neg f h, abs_neg, abs_of_nonneg pos]
    · rw [TimerFormat.round_of_pos f h, abs_of_nonneg pos]

/-- Scaling the comparison of |x| with a multiple of the spacing to natural numbers. -/
theorem abs_le_iff_scaled (x : Rat) (k : Nat) (q : Int) :
    |x| ≤ k * (2 : ℚ) ^ q ↔ x.num.natAbs * 2 ^ (-q).toNat ≤ k * (x.den * 2 ^ q.toNat) := by
  have hd : (0 : ℚ) < x.den := by exact_mod_cast x.den_pos
  rw [abs_eq_natAbs_div, two_zpow_eq, ← mul_div_assoc, div_le_div_iff₀ hd (by positivity),
    show (k : ℚ) * 2 ^ q.toNat * x.den = k * (x.den * 2 ^ q.toNat) by ring]
  exact_mod_cast Iff.rfl

theorem scaled_le_abs_iff (x : Rat) (k : Nat) (q : Int) :
    k * (2 : ℚ) ^ q ≤ |x| ↔ k * (x.den * 2 ^ q.toNat) ≤ x.num.natAbs * 2 ^ (-q).toNat := by
  have hd : (0 : ℚ) < x.den := by exact_mod_cast x.den_pos
  rw [abs_eq_natAbs_div, two_zpow_eq, ← mul_div_assoc, div_le_div_iff₀ (by positivity) hd,
    show (k : ℚ) * 2 ^ q.toNat * x.den = k * (x.den * 2 ^ q.toNat) by ring]
  exact_mod_cast Iff.rfl

theorem scaled_den_pos (x : Rat) (q : Int) : 0 < x.den * 2 ^ q.toNat := Nat.mul_pos x.den_pos (by positivity)

/-- A multiple of a coarser power of two is a multiple of a finer one. -/
theorem scale_down (j : Nat) {q q' : Int} (h : q ≤ q') :
    (j : ℚ) * 2 ^ q' = ((j * 2 ^ (q' - q).toNat : Nat) : ℚ) * 2 ^ q := by
  push_cast
  rw [mul_assoc, ← zpow_natCast (2 : ℚ) (q' - q).toNat, ← zpow_add₀ two_ne_zero]
  congr 2; omega

/-- Rounding does not pass a multiple of the spacing from below. -/
theorem TimerFormat.abs_round_le {x : Rat} {j : Nat} {q' : Int} (hq : f.spacingAt x ≤ q') (h : |x| ≤ j * 2 ^ q') :
    |f.round x| ≤ j * 2 ^ q' := by
  rw [TimerFormat.abs_round]
  split
  · positivity
  · rw [scale_down j hq] at h ⊢
    have := divNearest_le (ties := .toEven) (scaled_den_pos x _) ((abs_le_iff_scaled x _ _).mp h)
    have : f.significand x ≤ j * 2 ^ (q' - f.spacingAt x).toNat := this
    gcongr

/-- Rounding does not pass a multiple of the spacing from above. -/
theorem TimerFormat.le_abs_round {x : Rat} {j : Nat} {q' : Int} (hq : f.spacingAt x ≤ q') (h : j * 2 ^ q' ≤ |x|) :
    j * 2 ^ q' ≤ |f.round x| := by
  rw [TimerFormat.abs_round]
  split
  · rename_i hx; simpa [hx] using h
  · rw [scale_down j hq] at h ⊢
    have := le_divNearest (ties := .toEven) (scaled_den_pos x _) ((scaled_le_abs_iff x _ _).mp h)
    have : j * 2 ^ (q' - f.spacingAt x).toNat ≤ f.significand x := this
    gcongr

theorem TimerFormat.round_nonneg {x : Rat} (hx : 0 ≤ x) : 0 ≤ f.round x := by
  rcases hx.eq_or_lt with rfl | h
  · simp
  · rw [TimerFormat.round_of_pos f h]; positivity

theorem TimerFormat.round_nonpos {x : Rat} (hx : x ≤ 0) : f.round x ≤ 0 := by
  rcases hx.eq_or_lt with rfl | h
  · simp
  · rw [TimerFormat.round_of_neg f h]; simp only [neg_nonpos]; positivity

/-- The rounded significand is at most a half away from |x| in units of the spacing, and at a tie it is even. -/
theorem TimerFormat.significand_spec (x : Rat) :
    2 * |x| ≤ (2 * f.significand x + 1) * 2 ^ f.spacingAt x ∧
    (2 * f.significand x - 1) * (2 : ℚ) ^ f.spacingAt x ≤ 2 * |x| ∧
    (2 * |x| = (2 * f.significand x + 1) * 2 ^ f.spacingAt x ∨
      2 * |x| = (2 * f.significand x - 1) * 2 ^ f.spacingAt x → f.significand x % 2 = 0) := by
  set q := f.spacingAt x with hq
  have hD := scaled_den_pos x q
  obtain ⟨a, c, u, v⟩ := divNearest_spec (ties := .toEven) (n := x.num.natAbs * 2 ^ (-q).toNat) hD
  change 2 * _ ≤ (2 * f.significand x + 1) * _ at a
  change 2 * f.significand x * _ ≤ _ at c
  change 2 * _ = (2 * f.significand x + 1) * _ → _ ∧ f.significand x % 2 = 0 at u
  change _ = 2 * f.significand x * _ → _ ∨ f.significand x % 2 = 0 at v
  generalize f.significand x = m at *
  have hd : (0:ℚ) < x.den := by exact_mod_cast x.den_pos
  have h2 : (0:ℚ) < 2 ^ (-q).toNat := by positivity
  have key : |x| * (x.den * 2 ^ q.toNat) = (x.num.natAbs * 2 ^ (-q).toNat) * (2:ℚ) ^ q := by
    rw [abs_eq_natAbs_div, two_zpow_eq]; field_simp
  have hq0 : (0:ℚ) < 2 ^ q := by positivity
  have hDq : (0:ℚ) < x.den * 2 ^ q.toNat := by positivity
  set N : ℚ := x.num.natAbs * 2 ^ (-q).toNat with hN
  set D : ℚ := x.den * 2 ^ q.toNat with hDD
  have a' : 2 * N ≤ (2 * m + 1) * D := by rw [hN, hDD]; exact_mod_cast a
  have c' : 2 * m * D ≤ 2 * N + D := by rw [hN, hDD]; exact_mod_cast c
  refine ⟨?_, ?_, ?_⟩
  · refine le_of_mul_le_mul_right ?_ hDq
    calc 2 * |x| * D = 2 * N * 2 ^ q := by rw [mul_assoc, key]; ring
      _ ≤ ((2 * m + 1) * D) * 2 ^ q := by gcongr
      _ = _ := by ring
  · refine le_of_mul_le_mul_right ?_ hDq
    calc (2 * m - 1) * 2 ^ q * D = ((2 * m - 1) * D) * 2 ^ q := by ring
      _ ≤ (2 * N) * 2 ^ q := mul_le_mul_of_nonneg_right (by linarith) hq0.le
      _ = 2 * |x| * D := by rw [mul_assoc 2 |x|, key]; ring
  · rintro (h | h)
    · refine (u ?_).2
      have : (2 * N) * 2 ^ q = ((2 * m + 1) * D) * 2 ^ q := by
        calc (2 * N) * 2 ^ q = 2 * |x| * D := by rw [mul_assoc 2 |x|, key]; ring
          _ = _ := by rw [h]; ring
      have := mul_right_cancel₀ hq0.ne' this
      rw [hN, hDD] at this
      exact_mod_cast this
    · have : (2 * N) * 2 ^ q = ((2 * m - 1) * D) * 2 ^ q := by
        calc (2 * N) * 2 ^ q = 2 * |x| * D := by rw [mul_assoc 2 |x|, key]; ring
          _ = _ := by rw [h]; ring
      have := mul_right_cancel₀ hq0.ne' this
      have this : 2 * N + D = 2 * m * D := by linarith
      rw [hN, hDD] at this
      rcases v (by exact_mod_cast this) with h | h
      · cases h
      · exact h

/-- How far rounding moves x, in magnitudes. -/
theorem TimerFormat.abs_round_sub (x : Rat) :
    |f.round x - x| = abs ((f.significand x : ℚ) * 2 ^ f.spacingAt x - |x|) := by
  rcases lt_trichotomy x 0 with h | h | h
  · rw [f.round_of_neg h, abs_of_neg h, ← abs_neg]; congr 1; ring
  · subst h; simp
    have : f.significand 0 = 0 := by simp [TimerFormat.significand, divNearest]
    simp [this]
  · rw [f.round_of_pos h, abs_of_pos h]

/-- A multiple of the spacing is a number of the format. -/
theorem TimerFormat.round_exact {x : Rat} {j : Nat} {q' : Int} (hq : f.spacingAt x ≤ q') (h : |x| = j * 2 ^ q') :
    f.round x = x := by
  have e : |f.round x| = |x| := by
    rw [h]; exact le_antisymm (f.abs_round_le hq h.le) (f.le_abs_round hq h.ge)
  rcases le_total 0 x with hx | hx
  · rwa [abs_of_nonneg hx, abs_of_nonneg (f.round_nonneg hx)] at e
  · rw [abs_of_nonpos hx, abs_of_nonpos (f.round_nonpos hx)] at e; exact neg_injective e

/-- The magnitude bounds the spacing. -/
theorem TimerFormat.spacingAt_le {x : Rat} (hx : x ≠ 0) {k : Int} (hk : f.minExp < k) (h : |x| < 2 ^ k) :
    f.spacingAt x ≤ k - f.precision := by
  have hn : 0 < x.num.natAbs := Int.natAbs_pos.mpr (Rat.num_ne_zero.mpr hx)
  have s := (floorLog2_spec hn x.den_pos).1
  rw [← abs_eq_natAbs_div] at s
  have : floorLog2 x.num.natAbs x.den < k := (zpow_lt_zpow_iff_right₀ one_lt_two).mp (s.trans_lt h)
  unfold TimerFormat.spacingAt TimerFormat.spacing
  omega

theorem TimerFormat.abs_lt_spacing (x : Rat) : |x| < 2 ^ (f.spacingAt x + f.precision) := by
  by_cases hx : x = 0
  · subst hx; simp; positivity
  have hn : 0 < x.num.natAbs := Int.natAbs_pos.mpr (Rat.num_ne_zero.mpr hx)
  have s := (floorLog2_spec hn x.den_pos).2
  rw [← abs_eq_natAbs_div] at s
  refine s.trans_le (zpow_le_zpow_right₀ one_le_two ?_)
  unfold TimerFormat.spacingAt TimerFormat.spacing
  omega

theorem TimerFormat.minExp_le_spacing (x : Rat) : f.minExp < f.spacingAt x + f.precision := by
  unfold TimerFormat.spacingAt TimerFormat.spacing; omega

/-- The spacing grows with the magnitude. -/
theorem TimerFormat.spacingAt_mono {x y : Rat} (hx : x ≠ 0) (h : |x| ≤ |y|) : f.spacingAt x ≤ f.spacingAt y := by
  have := f.spacingAt_le hx (f.minExp_le_spacing y) (h.trans_lt (f.abs_lt_spacing y))
  omega

/-- A rounded number is a multiple of the spacing around itself. -/
theorem TimerFormat.round_on_grid (x : Rat) :
    ∃ (j : Nat) (q : Int), f.spacingAt (f.round x) ≤ q ∧ |f.round x| = j * 2 ^ q := by
  by_cases hr : f.round x = 0
  · exact ⟨0, f.spacingAt (f.round x), le_rfl, by simp [hr]⟩
  have hx : x ≠ 0 := by rintro rfl; simp at hr
  have hs : |f.round x| = f.significand x * 2 ^ f.spacingAt x := by rw [f.abs_round, if_neg hx]
  have one := f.one_le_precision
  have top : |f.round x| ≤ (2 : ℚ) ^ (f.spacingAt x + f.precision) := by
    have e : (2 : ℚ) ^ (f.spacingAt x + f.precision) = ((2 ^ f.precision : Nat) : ℚ) * 2 ^ f.spacingAt x := by
      push_cast; rw [zpow_add₀ two_ne_zero, zpow_natCast, mul_comm]
    rw [e]
    exact f.abs_round_le le_rfl (e ▸ (f.abs_lt_spacing x).le)
  rcases top.lt_or_eq with hlt | heq
  · refine ⟨f.significand x, f.spacingAt x, ?_, hs⟩
    have := f.spacingAt_le hr (f.minExp_le_spacing x) hlt
    omega
  · refine ⟨1, f.spacingAt x + f.precision, ?_, by simpa using heq⟩
    have m := f.minExp_le_spacing x
    have : |f.round x| < (2 : ℚ) ^ (f.spacingAt x + f.precision + 1) := by
      rw [heq]; exact zpow_lt_zpow_right₀ one_lt_two (by omega)
    have := f.spacingAt_le hr (by omega) this
    omega

/-- The numbers of the format are those that rounding leaves alone. -/
theorem TimerFormat.representable_iff (x : Rat) : f.Representable x ↔ f.round x = x := by
  constructor
  · rintro ⟨m, q, hm, hq, rfl⟩
    by_cases hx : (m : ℚ) * 2 ^ q = 0
    · rw [hx, f.round_zero]
    have habs : |(m : ℚ) * 2 ^ q| = (m.natAbs : ℚ) * 2 ^ q := by
      rw [abs_mul, abs_of_pos (a := (2 : ℚ) ^ q) (by positivity), Nat.cast_natAbs, Int.cast_abs]
    have hlt : |(m : ℚ) * 2 ^ q| < 2 ^ (q + f.precision) := by
      rw [habs, zpow_add₀ two_ne_zero, mul_comm, zpow_natCast]
      have : (m.natAbs : ℚ) < 2 ^ f.precision := by
        rw [Nat.cast_natAbs]; exact_mod_cast hm
      gcongr
    have := f.spacingAt_le hx (by omega) hlt
    exact f.round_exact (by omega) habs
  · intro h
    by_cases hx : x = 0
    · exact ⟨0, f.minExp - f.precision + 1, by simp, le_rfl, by simp [hx]⟩
    have lt : f.significand x < 2 ^ f.precision := by
      have top := f.abs_lt_spacing x
      rw [← h, f.abs_round, if_neg hx, h, zpow_add₀ two_ne_zero, mul_comm, zpow_natCast] at top
      exact_mod_cast lt_of_mul_lt_mul_left top (by positivity)
    have low := f.minExp_le_spacing x
    rcases lt_or_gt_of_ne hx with hn | hp
    · refine ⟨-f.significand x, f.spacingAt x, by simpa using (by exact_mod_cast lt), by omega, ?_⟩
      exact (h.symm.trans (f.round_of_neg hn)).trans (by push_cast; ring)
    · refine ⟨f.significand x, f.spacingAt x, by simpa using (by exact_mod_cast lt), by omega, ?_⟩
      exact h.symm.trans (f.round_of_pos hp)

/-- A rounded number is a number of the format. -/
theorem TimerFormat.round_representable (x : Rat) : f.Representable (f.round x) := by
  obtain ⟨j, q, hq, h⟩ := f.round_on_grid x
  exact (f.representable_iff _).mpr (f.round_exact hq h)

/-- Rounding keeps the order with a number of the format. -/
theorem TimerFormat.abs_round_le_of_le {x y : Rat} (hy : f.Representable y) (h : |x| ≤ |y|) : |f.round x| ≤ |y| := by
  by_cases hx : x = 0
  · subst hx; simp
  obtain ⟨j, q, hq, hj⟩ := f.round_on_grid y
  rw [(f.representable_iff y).mp hy] at hq hj
  rw [hj] at h ⊢
  exact f.abs_round_le ((f.spacingAt_mono hx (h.trans_eq hj.symm)).trans hq) h

/-- Numbers up to 255 in magnitude are spaced more closely than the integers. -/
theorem TimerFormat.spacingAt_of_le_255 {x : Rat} (hx : x ≠ 0) (h : |x| ≤ 255) : f.spacingAt x ≤ 0 := by
  have := f.spacingAt_le hx (k := 8) (by cases f <;> decide) (h.trans_lt (by norm_num))
  have : (24 : Int) ≤ f.precision := by cases f <;> decide
  omega

/-- A byte converts exactly (R177, R178). -/
theorem TimerFormat.natCast_representable {n : Nat} (h : n ≤ 255) : f.Representable (n : ℚ) := by
  rw [f.representable_iff]
  by_cases hn : n = 0
  · subst hn; simp
  have a : |(n : ℚ)| = n := abs_of_nonneg (by positivity)
  refine f.round_exact (j := n) (q' := 0) (f.spacingAt_of_le_255 (by exact_mod_cast hn) ?_) (by simp)
  rw [a]; exact_mod_cast h

/-- R29, R35, R211: one decay keeps a timer at or above -timer_delta and at or below 255. -/
theorem Params.decay_bounds (p : Params) (h0 : 0 < p.timerDelta) {t : Rat} (hlo : -p.timerDelta ≤ t) (hhi : t ≤ 255) :
    -p.timerDelta ≤ p.decay t ∧ p.decay t ≤ 255 := by
  unfold Params.decay
  split
  · rename_i ht
    unfold TimerFormat.sub
    rw [exactSub_eq]
    rcases le_total p.timerDelta t with hd | hd
    · have hx : 0 ≤ t - p.timerDelta := by linarith
      refine ⟨by linarith [p.timerFormat.round_nonneg hx], ?_⟩
      by_cases hz : t - p.timerDelta = 0
      · rw [hz]; norm_num
      have hle : |t - p.timerDelta| ≤ 255 := by rw [abs_of_nonneg hx]; linarith
      have := p.timerFormat.abs_round_le (j := 255) (q' := 0) (p.timerFormat.spacingAt_of_le_255 hz hle) (by simpa using hle)
      simpa using (le_abs_self _).trans this
    · have hx : t - p.timerDelta ≤ 0 := by linarith
      refine ⟨?_, by linarith [p.timerFormat.round_nonpos hx]⟩
      have rep : p.timerFormat.Representable p.timerDelta := p.timerFormat.round_representable _
      have := p.timerFormat.abs_round_le_of_le (x := t - p.timerDelta) rep
        (by rw [abs_of_nonpos hx, abs_of_pos h0]; linarith)
      rw [abs_of_pos h0] at this
      linarith [neg_abs_le (p.timerFormat.round (t - p.timerDelta))]
  · exact ⟨hlo, hhi⟩

/-- A decayed timer is a number of the format. -/
theorem Params.decay_representable (p : Params) {t : Rat} (h : p.timerFormat.Representable t) :
    p.timerFormat.Representable (p.decay t) := by
  unfold Params.decay
  split
  · exact p.timerFormat.round_representable _
  · exact h

/-- R172: the nearest integer of a timer in range is in 0 to 255, so the read is that integer. -/
theorem nearestInt_bounds (ties : RoundTies) {t : Rat} (hlo : -(1 / 2) < t) (hhi : t ≤ 255) :
    0 ≤ nearestInt ties t ∧ nearestInt ties t ≤ 255 := by
  have hd : 0 < t.den := t.den_pos
  have hdq : (0 : ℚ) < t.den := by exact_mod_cast hd
  unfold nearestInt
  rcases lt_or_ge t 0 with ht | ht
  · have : 2 * t.num.natAbs < t.den := by
      have e : |t| = (t.num.natAbs : ℚ) / t.den := abs_eq_natAbs_div t
      rw [abs_of_neg ht] at e
      have : (t.num.natAbs : ℚ) / t.den < 1 / 2 := by rw [← e]; linarith
      rw [div_lt_iff₀ hdq] at this
      have : (2 * t.num.natAbs : ℚ) < t.den := by linarith
      exact_mod_cast this
    simp [divNearest_of_lt_half this]
  · have hn : t.num.natAbs ≤ 255 * t.den := by
      have e : |t| = (t.num.natAbs : ℚ) / t.den := abs_eq_natAbs_div t
      rw [abs_of_nonneg ht] at e
      have : (t.num.natAbs : ℚ) / t.den ≤ 255 := by rw [← e]; exact hhi
      rw [div_le_iff₀ hdq] at this
      exact_mod_cast this
    have le : divNearest ties t.num.natAbs t.den ≤ 255 := divNearest_le hd hn
    rcases ht.eq_or_lt with h | h
    · rw [← h]; simp
    · rw [Int.sign_eq_one_of_pos (Rat.num_pos.mpr h)]; omega

end Sys2Proof
end

