-- ==== Sys2Proof/Laws/HostPort.lean ====
section
/-! SUPPORT. What `load` builds, byte by byte (R240, R241). -/

namespace Sys2Proof.Machine

/-- The memory image of a loaded ROM: its bytes from 0x200 on, the reset image elsewhere. -/
theorem State.fresh_readByte (s : State) (rom : List Byte) (h : rom.length ≤ maxRomLength) (a : Nat) :
    (s.fresh rom).readByte a =
      if romBase ≤ a then rom.getD (a - romBase) (resetByte s.params.font a) else resetByte s.params.font a := by
  have wf : ({ State.reset with params := s.params, draws := s.draws } : State).memory.wf s.params.font := by
    simp [State.reset, Memory.wf]
  have room : romBase + rom.length ≤ memSize := by unfold romBase memSize; unfold maxRomLength at h; omega
  exact State.readByte_writeBytes _ wf romBase rom a room

/-- `load` keeps the canonical form of memory. -/
theorem State.fresh_wf (s : State) (rom : List Byte) : (s.fresh rom).memory.wf s.params.font :=
  State.writeBytes_wf ({ State.reset with params := s.params, draws := s.draws } : State)
    (by simp [State.reset, Memory.wf]) romBase rom

/-- Everything of a loaded state but its memory. -/
theorem State.fresh_eq (s : State) (rom : List Byte) :
    s.fresh rom = { State.reset with params := s.params, draws := s.draws, memory := (s.fresh rom).memory } := by
  unfold State.fresh
  rw [State.writeBytes_eq]

end Sys2Proof.Machine
end

