-- ==== Sys2Proof/Laws/PerInstr.lean ====
section
/-! SUPPORT. For every instruction: its encoding matches its row of spec/opcode_table.json. The masks and the matched
values are that file's own columns, so the encoder is held against them. -/

namespace Sys2Proof.Laws

/-- The `mask` column. -/
def RowPattern.mask : Instr → Word
  | .cls | .ret => 0xFFFF
  | .sys _ | .jp _ | .call _ | .seImm _ _ | .sneImm _ _ | .mvi _ _ | .addImm _ _ | .mviI _ | .jpV0 _ | .rnd _ _
  | .drw _ _ _ => 0xF000
  | .seReg _ _ | .mov _ _ | .or _ _ | .and _ _ | .xor _ _ | .addReg _ _ | .sub _ _ | .shr _ _ | .subn _ _
  | .shl _ _ | .sneReg _ _ => 0xF00F
  | .skp _ | .sknp _ | .movVxDt _ | .waitkey _ | .movDtVx _ | .movStVx _ | .addI _ | .font _ | .bcd _ | .stm _
  | .ldm _ => 0xF0FF

/-- The `match` column. -/
def RowPattern.value : Instr → Word
  | .cls => 0x00E0
  | .ret => 0x00EE
  | .sys _ => 0x0000
  | .jp _ => 0x1000
  | .call _ => 0x2000
  | .seImm _ _ => 0x3000
  | .sneImm _ _ => 0x4000
  | .seReg _ _ => 0x5000
  | .mvi _ _ => 0x6000
  | .addImm _ _ => 0x7000
  | .mov _ _ => 0x8000
  | .or _ _ => 0x8001
  | .and _ _ => 0x8002
  | .xor _ _ => 0x8003
  | .addReg _ _ => 0x8004
  | .sub _ _ => 0x8005
  | .shr _ _ => 0x8006
  | .subn _ _ => 0x8007
  | .shl _ _ => 0x800E
  | .sneReg _ _ => 0x9000
  | .mviI _ => 0xA000
  | .jpV0 _ => 0xB000
  | .rnd _ _ => 0xC000
  | .drw _ _ _ => 0xD000
  | .skp _ => 0xE09E
  | .sknp _ => 0xE0A1
  | .movVxDt _ => 0xF007
  | .waitkey _ => 0xF00A
  | .movDtVx _ => 0xF015
  | .movStVx _ => 0xF018
  | .addI _ => 0xF01E
  | .font _ => 0xF029
  | .bcd _ => 0xF033
  | .stm _ => 0xF055
  | .ldm _ => 0xF065

/-- The fixed bits of the instruction's word are the row's. -/
def RowPattern.Statement (i : Instr) : Prop := encodeWord i &&& RowPattern.mask i = RowPattern.value i

variable (f x y n : Nibble) (nn : Byte) (nnn : Addr)

/-! What each mask keeps of each shape. -/

theorem formNNN_family : formNNN f nnn &&& 0xF000 = formNNN f 0 := by
  refine BitVec.eq_of_getLsbD_eq fun i hi => ?_
  rw [BitVec.getLsbD_and, formNNN_bit, formNNN_bit]
  interval_cases i <;> simp

theorem formXNN_family : formXNN f x nn &&& 0xF000 = formXNN f 0 0 := by
  refine BitVec.eq_of_getLsbD_eq fun i hi => ?_
  rw [BitVec.getLsbD_and, formXNN_bit, formXNN_bit]
  interval_cases i <;> simp

theorem formXNN_low : formXNN f x nn &&& 0xF0FF = formXNN f 0 nn := by
  refine BitVec.eq_of_getLsbD_eq fun i hi => ?_
  rw [BitVec.getLsbD_and, formXNN_bit, formXNN_bit]
  interval_cases i <;> simp

theorem formXYN_family : formXYN f x y n &&& 0xF000 = formXYN f 0 0 0 := by
  refine BitVec.eq_of_getLsbD_eq fun i hi => ?_
  rw [BitVec.getLsbD_and, formXYN_bit, formXYN_bit]
  interval_cases i <;> simp

theorem formXYN_low : formXYN f x y n &&& 0xF00F = formXYN f 0 0 n := by
  refine BitVec.eq_of_getLsbD_eq fun i hi => ?_
  rw [BitVec.getLsbD_and, formXYN_bit, formXYN_bit]
  interval_cases i <;> simp

/-! One lemma per instruction. -/

theorem RowPattern.cls : RowPattern.Statement (.cls) := rfl
theorem RowPattern.ret : RowPattern.Statement (.ret) := rfl
theorem RowPattern.sys (nnn : Addr) : RowPattern.Statement (.sys nnn) := formNNN_family _ _
theorem RowPattern.jp (nnn : Addr) : RowPattern.Statement (.jp nnn) := formNNN_family _ _
theorem RowPattern.call (nnn : Addr) : RowPattern.Statement (.call nnn) := formNNN_family _ _
theorem RowPattern.seImm (x : Nibble) (nn : Byte) : RowPattern.Statement (.seImm x nn) := formXNN_family _ _ _
theorem RowPattern.sneImm (x : Nibble) (nn : Byte) : RowPattern.Statement (.sneImm x nn) := formXNN_family _ _ _
theorem RowPattern.seReg (x : Nibble) (y : Nibble) : RowPattern.Statement (.seReg x y) := formXYN_low _ _ _ _
theorem RowPattern.mvi (x : Nibble) (nn : Byte) : RowPattern.Statement (.mvi x nn) := formXNN_family _ _ _
theorem RowPattern.addImm (x : Nibble) (nn : Byte) : RowPattern.Statement (.addImm x nn) := formXNN_family _ _ _
theorem RowPattern.mov (x : Nibble) (y : Nibble) : RowPattern.Statement (.mov x y) := formXYN_low _ _ _ _
theorem RowPattern.or (x : Nibble) (y : Nibble) : RowPattern.Statement (.or x y) := formXYN_low _ _ _ _
theorem RowPattern.and (x : Nibble) (y : Nibble) : RowPattern.Statement (.and x y) := formXYN_low _ _ _ _
theorem RowPattern.xor (x : Nibble) (y : Nibble) : RowPattern.Statement (.xor x y) := formXYN_low _ _ _ _
theorem RowPattern.addReg (x : Nibble) (y : Nibble) : RowPattern.Statement (.addReg x y) := formXYN_low _ _ _ _
theorem RowPattern.sub (x : Nibble) (y : Nibble) : RowPattern.Statement (.sub x y) := formXYN_low _ _ _ _
theorem RowPattern.shr (x : Nibble) (y : Nibble) : RowPattern.Statement (.shr x y) := formXYN_low _ _ _ _
theorem RowPattern.subn (x : Nibble) (y : Nibble) : RowPattern.Statement (.subn x y) := formXYN_low _ _ _ _
theorem RowPattern.shl (x : Nibble) (y : Nibble) : RowPattern.Statement (.shl x y) := formXYN_low _ _ _ _
theorem RowPattern.sneReg (x : Nibble) (y : Nibble) : RowPattern.Statement (.sneReg x y) := formXYN_low _ _ _ _
theorem RowPattern.mviI (nnn : Addr) : RowPattern.Statement (.mviI nnn) := formNNN_family _ _
theorem RowPattern.jpV0 (nnn : Addr) : RowPattern.Statement (.jpV0 nnn) := formNNN_family _ _
theorem RowPattern.rnd (x : Nibble) (nn : Byte) : RowPattern.Statement (.rnd x nn) := formXNN_family _ _ _
theorem RowPattern.drw (x : Nibble) (y : Nibble) (n : Nibble) : RowPattern.Statement (.drw x y n) := formXYN_family _ _ _ _
theorem RowPattern.skp (x : Nibble) : RowPattern.Statement (.skp x) := formXNN_low _ _ _
theorem RowPattern.sknp (x : Nibble) : RowPattern.Statement (.sknp x) := formXNN_low _ _ _
theorem RowPattern.movVxDt (x : Nibble) : RowPattern.Statement (.movVxDt x) := formXNN_low _ _ _
theorem RowPattern.waitkey (x : Nibble) : RowPattern.Statement (.waitkey x) := formXNN_low _ _ _
theorem RowPattern.movDtVx (x : Nibble) : RowPattern.Statement (.movDtVx x) := formXNN_low _ _ _
theorem RowPattern.movStVx (x : Nibble) : RowPattern.Statement (.movStVx x) := formXNN_low _ _ _
theorem RowPattern.addI (x : Nibble) : RowPattern.Statement (.addI x) := formXNN_low _ _ _
theorem RowPattern.font (x : Nibble) : RowPattern.Statement (.font x) := formXNN_low _ _ _
theorem RowPattern.bcd (x : Nibble) : RowPattern.Statement (.bcd x) := formXNN_low _ _ _
theorem RowPattern.stm (x : Nibble) : RowPattern.Statement (.stm x) := formXNN_low _ _ _
theorem RowPattern.ldm (x : Nibble) : RowPattern.Statement (.ldm x) := formXNN_low _ _ _

end Sys2Proof.Laws
end

