-- ==== Sys2Proof/Laws/Step.lean ====
section
/-! SUPPORT. Everything a step can do, and everything an instruction can touch. -/

namespace Sys2Proof.Machine

/-- The cases of R80, in the order of R203. -/
theorem step_cases {s t : State} (h : step s = .next t) :
    (s.fault ≠ none ∧ t = s) ∨
    (s.fault = none ∧ s.fetch = none ∧ t = s.raise .fetchOutOfRange s.pc.toNat) ∨
    (∃ w, s.fault = none ∧ s.fetch = some w ∧ s.frozen w = true ∧ t = s.timerDecay) ∨
    (∃ w e, s.fault = none ∧ s.fetch = some w ∧ s.frozen w = false ∧ decodeWord s.params.loose59 w = .error e ∧
      t = s.raise .decodeFailure w.toNat) ∨
    (∃ w i u, s.fault = none ∧ s.fetch = some w ∧ s.frozen w = false ∧ decodeWord s.params.loose59 w = .ok i ∧
      exec i s = .next u ∧ t = u.endCycle) := by
  unfold step at h
  split at h
  · rename_i hh
    cases h
    exact .inl ⟨by simpa [State.halted, Option.isSome_iff_ne_none] using hh, rfl⟩
  · rename_i hh
    have hs : s.fault = none := by simpa [State.halted] using hh
    split at h
    · rename_i hf; cases h; exact .inr (.inl ⟨hs, hf, rfl⟩)
    · rename_i w hf
      split at h
      · rename_i hz; cases h; exact .inr (.inr (.inl ⟨w, hs, hf, hz, rfl⟩))
      · rename_i hz
        have hz : s.frozen w = false := by simpa using hz
        split at h
        · rename_i e hd; cases h; exact .inr (.inr (.inr (.inl ⟨w, e, hs, hf, hz, hd, rfl⟩)))
        · rename_i i hd
          cases hx : exec i s with
          | next u => rw [hx] at h; cases h; exact .inr (.inr (.inr (.inr ⟨w, i, u, hs, hf, hz, hd, hx, rfl⟩)))
          | fault f => rw [hx] at h; cases h
          | refused r => rw [hx] at h; cases h

/-- A step that runs an instruction. -/
theorem step_of_decoded {s : State} {w : Word} {i : Instr} (hs : s.fault = none) (hf : s.fetch = some w)
    (hz : s.frozen w = false) (hd : decodeWord s.params.loose59 w = .ok i) : step s = endOutcome (exec i s) := by
  simp [step, State.halted, hs, hf, hz, hd]

/-- A step whose word does not decode. -/
theorem step_of_error {s : State} {w : Word} {e : DecodeError} (hs : s.fault = none) (hf : s.fetch = some w)
    (hz : s.frozen w = false) (hd : decodeWord s.params.loose59 w = .error e) :
    step s = .next (s.raise .decodeFailure w.toNat) := by
  simp [step, State.halted, hs, hf, hz, hd]

theorem State.frozen_eq_false_iff (s : State) (w : Word) :
    s.frozen w = false ↔ s.awaiting = false ∨ isKeyWait w = true := by
  simp only [State.frozen]; cases s.awaiting <;> cases isKeyWait w <;> simp

/-- A fetch in range is the two bytes at the pc. -/
theorem State.fetch_eq_some_iff (s : State) (w : Word) :
    s.fetch = some w ↔ s.pc.toNat + 1 < memSize ∧
      w = wordOfBytes (s.readByte s.pc.toNat) (s.readByte (s.pc.toNat + 1)) := by
  unfold State.fetch; split <;> simp_all [eq_comm]

theorem State.fetch_eq_none_iff (s : State) : s.fetch = none ↔ memSize ≤ s.pc.toNat + 1 := by
  unfold State.fetch; split <;> simp <;> omega

/-- The end of a cycle changes the timers alone, and only without a fault. -/
theorem State.endCycle_eq (s : State) : s.endCycle = if s.fault = none then s.timerDecay else s := by
  unfold State.endCycle State.halted
  cases s.fault <;> simp

/-! ### What each instruction touches -/

/-- What an instruction that raises no fault may change besides the pc. -/
def touches (s : State) : Instr → Touches
  | .cls => { display := true }
  | .ret | .call _ => { stack := true }
  | .sys _ | .jp _ | .jpV0 _ | .seImm _ _ | .sneImm _ _ | .seReg _ _ | .sneReg _ _ | .skp _ | .sknp _ => {}
  | .mvi x _ | .addImm x _ | .mov x _ | .or x _ | .and x _ | .xor x _ | .movVxDt x => { regs := [x] }
  | .addReg x _ | .sub x _ | .shr x _ | .subn x _ | .shl x _ => { regs := [x, vf] }
  | .rnd x _ => { regs := [x], draws := true }
  | .mviI _ | .addI _ | .font _ => { index := true }
  | .drw _ _ _ => { regs := [vf], display := true }
  | .waitkey x => { regs := [x], awaiting := true }
  | .movDtVx _ => { delayTimer := true }
  | .movStVx _ => { soundTimer := true }
  | .bcd _ => { bytes := (s.ea 0, 3) }
  | .stm x => { bytes := (s.ea 0, x.toNat + 1) }
  | .ldm x => { regs := (List.range (x.toNat + 1)).map (BitVec.ofNat 4) }

/-- A state that differs in the registers named and the pc. -/
theorem State.frame_of_regs (s : State) (regs : Vector Byte 16) (pc : Word) (xs : List Nibble)
    (h : ∀ z, z ∉ xs → regs[z.toNat] = s.getV z) : s.Frame { s with regs := regs, pc := pc } { regs := xs } where
  regs := h
  memory _ _ := rfl
  index _ := rfl
  stack _ := rfl
  screen _ := rfl
  redraw _ := rfl
  delayTimer _ := rfl
  soundTimer _ := rfl
  awaiting _ := rfl
  fault _ := rfl
  draws _ := rfl
  keys := rfl
  params := rfl

theorem State.frame_setV (s : State) (x : Nibble) (v : Byte) : s.Frame (s.setV x v).advance { regs := [x] } :=
  s.frame_of_regs _ _ _ fun z hz => State.getV_setV_other s v (by simpa using hz)

theorem State.frame_writeRF (s : State) (x : Nibble) (r f : Byte) :
    s.Frame (s.writeRF x r f).advance { regs := [x, vf] } := by
  rw [State.writeRF_eq]
  refine s.frame_of_regs _ _ _ fun z hz => ?_
  simp at hz
  exact State.writeRF_getV_other s x r f hz.1 hz.2

/-- WriteRF leaves what R119 says. -/
theorem State.resultAndFlag_writeRF (s : State) (x : Nibble) (r f : Byte) :
    s.ResultAndFlag (s.writeRF x r f).advance x r f where
  apart hx := by
    have := State.writeRF_getV s x r f hx
    simp only [State.advance_getV, this]
    refine ⟨?_, ?_⟩
    · rw [if_neg (show ¬ x = vf from hx)]; simp
    · rw [if_pos (show (15 : Nibble) = vf from rfl)]
  same hx := by
    have := State.writeRF_vf_getV s r f 15
    rw [if_pos (show (15 : Nibble) = vf from rfl)] at this
    rw [hx]
    exact this

theorem mem_regsUpTo_list (x z : Nibble) :
    z ∈ (List.range (x.toNat + 1)).map (BitVec.ofNat 4) ↔ z ≤ x := by
  have hx : x.toNat < 16 := x.isLt
  have hz : z.toNat < 16 := z.isLt
  simp only [List.mem_map, List.mem_range, BitVec.le_def]
  constructor
  · rintro ⟨k, hk, rfl⟩
    have : k < 16 := by omega
    simp; omega
  · intro h
    exact ⟨z.toNat, by omega, by simp⟩

theorem State.frame_loadUpTo (s : State) (x : Nibble) :
    s.Frame (s.loadUpTo x).advance { regs := (List.range (x.toNat + 1)).map (BitVec.ofNat 4) } := by
  refine s.frame_of_regs _ _ _ fun z hz => ?_
  rw [mem_regsUpTo_list] at hz
  have := State.getV_loadUpTo s x z
  rw [if_neg hz] at this
  exact this

theorem State.frame_writeBytes (s : State) (a : Nat) (vs : List Byte) :
    s.Frame (s.writeBytes a vs).advance { bytes := (a, vs.length) } where
  regs z _ := by simp
  memory b hb := by rw [State.advance_readByte, State.readByte_writeBytes_other s a vs hb]
  index _ := by simp
  stack _ := by simp
  screen _ := by simp
  redraw _ := by simp
  delayTimer _ := by simp
  soundTimer _ := by simp
  awaiting _ := by simp
  fault _ := by simp
  draws _ := by simp
  keys := by simp
  params := by simp

/-- Every instruction answers a next state: its effect within what it touches, or a fault recorded and nothing else. -/
theorem exec_cases (i : Instr) (s : State) :
    ∃ t, exec i s = .next t ∧ (s.Frame t (touches s i) ∨ ∃ c n, t = s.raise c n) := by
  have acc : ∀ (n : Nat) (done : State) (w : Touches), (s.InRange n → s.Frame done w) →
      ∃ t, s.accessing n done = .next t ∧ (s.Frame t w ∨ ∃ c n, t = s.raise c n) := by
    intro n done w hw
    by_cases hn : s.InRange n
    · exact ⟨done, State.accessing_ok s n done hn, .inl (hw hn)⟩
    · refine ⟨_, State.accessing_bad s n done (by omega) (by omega), .inr ⟨_, _, rfl⟩⟩
  cases i
  case sys nnn =>
    cases hp : s.params.sys0nnn
    · exact ⟨_, by simp [exec, execSys, hp]; rfl, .inr ⟨_, _, rfl⟩⟩
    · exact ⟨s.advance, by simp [exec, execSys, hp], .inl (by constructor <;> simp)⟩
  case call nnn =>
    cases hf : s.stackFull
    · exact ⟨_, by simp [exec, execCall, hf]; rfl, .inl (by constructor <;> simp [touches])⟩
    · exact ⟨_, by simp [exec, execCall, hf]; rfl, .inr ⟨_, _, rfl⟩⟩
  case waitkey x =>
    cases hk : s.lastKey
    · exact ⟨_, by simp [exec, execWaitkey, hk]; rfl, .inl (by constructor <;> simp [touches])⟩
    · refine ⟨_, by simp [exec, execWaitkey, hk]; rfl, .inl ?_⟩
      constructor <;> simp +contextual [touches, State.getV_setV]
  case drw x y n =>
    refine acc _ _ _ fun _ => ?_
    constructor <;> simp +contextual [touches, State.getV_setV]
  case bcd x =>
    exact acc _ _ _ fun _ => s.frame_writeBytes _ (bcdDigits (s.getV x))
  case stm x =>
    refine acc _ _ _ fun _ => ?_
    have := s.frame_writeBytes (s.ea 0) (s.regsUpTo x)
    rwa [State.length_regsUpTo] at this
  case ldm x => exact acc _ _ _ fun _ => s.frame_loadUpTo x
  case mvi x nn => exact ⟨_, rfl, .inl (s.frame_setV x _)⟩
  case addImm x nn => exact ⟨_, rfl, .inl (s.frame_setV x _)⟩
  case mov x y => exact ⟨_, rfl, .inl (s.frame_setV x _)⟩
  case or x y => exact ⟨_, rfl, .inl (s.frame_setV x _)⟩
  case and x y => exact ⟨_, rfl, .inl (s.frame_setV x _)⟩
  case xor x y => exact ⟨_, rfl, .inl (s.frame_setV x _)⟩
  case movVxDt x => exact ⟨_, rfl, .inl (s.frame_setV x _)⟩
  case addReg x y => exact ⟨_, rfl, .inl (s.frame_writeRF x _ _)⟩
  case sub x y => exact ⟨_, rfl, .inl (s.frame_writeRF x _ _)⟩
  case subn x y => exact ⟨_, rfl, .inl (s.frame_writeRF x _ _)⟩
  case shr x y => exact ⟨_, rfl, .inl (s.frame_writeRF x _ _)⟩
  case shl x y => exact ⟨_, rfl, .inl (s.frame_writeRF x _ _)⟩
  case rnd x nn =>
    refine ⟨_, rfl, .inl ?_⟩
    constructor <;> simp +contextual [touches, State.getV_setV]
  all_goals exact ⟨_, rfl, .inl (by constructor <;> simp [touches])⟩

/-- The instruction of a fetched word that decodes. -/
theorem State.current_of_decoded {s : State} {w : Word} {i : Instr} (h1 : s.fetch = some w)
    (h2 : decodeWord s.params.loose59 w = .ok i) : s.current = some i := by
  simp [State.current, h1, h2]

/-- What any step can do: a fault record and the timers, or what its instruction touches and the timers. -/
theorem step_frame {s t : State} (h : step s = .next t) :
    (∃ o, t = { s with fault := o, delayTimer := t.delayTimer, soundTimer := t.soundTimer }) ∨
    ∃ i u, exec i s = .next u ∧ s.current = some i ∧ s.Frame u (touches s i) ∧
      t = { u with delayTimer := t.delayTimer, soundTimer := t.soundTimer } ∧ t.fault = s.fault := by
  rcases step_cases h with ⟨_, rfl⟩ | ⟨_, _, rfl⟩ | ⟨w, _, _, _, rfl⟩ | ⟨w, e, _, _, _, _, rfl⟩ | ⟨w, i, u, hs, hf, hz, hd, hx, rfl⟩
  · exact .inl ⟨_, rfl⟩
  · exact .inl ⟨_, rfl⟩
  · exact .inl ⟨_, rfl⟩
  · exact .inl ⟨_, rfl⟩
  · obtain ⟨v, hv, hc⟩ := exec_cases i s
    rw [hx] at hv; cases hv
    rcases hc with hc | ⟨c, n, rfl⟩
    · right
      have hfu : u.fault = s.fault := hc.fault (by cases i <;> rfl)
      refine ⟨i, u, hx, State.current_of_decoded hf hd, hc, ?_, ?_⟩
      · rw [State.endCycle_eq]; split <;> rfl
      · rw [State.endCycle_eq]; split <;> simp [hfu]
    · left; exact ⟨_, rfl⟩

/-- An instruction whose bytes are not all in memory records the fault of R139 and does nothing else. -/
theorem exec_inRange_or_raise {i : Instr} {s t : State} (h : exec i s = .next t) :
    s.InRange (bytesAccessed i) ∨
    ¬ s.InRange (bytesAccessed i) ∧ t = s.raise .memoryOutOfRange (max s.index.toNat memSize) := by
  by_cases hr : s.InRange (bytesAccessed i)
  · exact .inl hr
  · right; refine ⟨hr, ?_⟩
    cases i
    case drw x y n =>
      simp only [exec, execDrw] at h
      rw [State.accessing_bad s _ _ (by simp [bytesAccessed] at hr; omega) (by simp [bytesAccessed] at hr; omega)] at h
      cases h; rfl
    case bcd x =>
      simp only [exec, execBcd] at h
      rw [State.accessing_bad s _ _ (by omega) (by simp [bytesAccessed] at hr; omega)] at h
      cases h; rfl
    case stm x =>
      simp only [exec, execStm] at h
      rw [State.accessing_bad s _ _ (by omega) (by simp [bytesAccessed] at hr; omega)] at h
      cases h; rfl
    case ldm x =>
      simp only [exec, execLdm] at h
      rw [State.accessing_bad s _ _ (by omega) (by simp [bytesAccessed] at hr; omega)] at h
      cases h; rfl
    all_goals simp [bytesAccessed] at hr

end Sys2Proof.Machine
end

