-- ==== Sys2Proof/Tests/Slice0.lean ====
section
/-! SUPPORT. Tests. Expected results are those of 95_test_vectors.md (the vector is named in the comment), or words written
out by hand from the patterns of R73. The last part shows, for every statement with hypotheses, a state that meets them. -/

open Sys2Proof Sys2Proof.Machine

namespace Sys2Proof.Tests

/-! ### Well-formedness (R101) -/

theorem test_sys_of_cls_ill_formed : Instr.wellFormed (.sys 0x0E0) = false := by decide
theorem test_sys_of_ret_ill_formed : Instr.wellFormed (.sys 0x0EE) = false := by decide
theorem test_sys_next_to_cls_well_formed : Instr.wellFormed (.sys 0x0E1) = true := by decide

/-! ### Decoding: one word per constructor, from its pattern (R73) -/

theorem test_decode_cls : decodeWord false 0x00E0 = .ok .cls := by rfl
theorem test_decode_ret : decodeWord false 0x00EE = .ok .ret := by rfl
theorem test_decode_sys : decodeWord false 0x01E0 = .ok (.sys 0x1E0) := by rfl
theorem test_decode_jp : decodeWord false 0x1234 = .ok (.jp 0x234) := by rfl
theorem test_decode_call : decodeWord false 0x2ABC = .ok (.call 0xABC) := by rfl
theorem test_decode_seImm : decodeWord false 0x3A0B = .ok (.seImm 0xA 0x0B) := by rfl
theorem test_decode_sneImm : decodeWord false 0x4A0B = .ok (.sneImm 0xA 0x0B) := by rfl
theorem test_decode_seReg : decodeWord false 0x5120 = .ok (.seReg 0x1 0x2) := by rfl
theorem test_decode_mvi : decodeWord false 0x6A2F = .ok (.mvi 0xA 0x2F) := by rfl
theorem test_decode_addImm : decodeWord false 0x7F01 = .ok (.addImm 0xF 0x01) := by rfl
theorem test_decode_mov : decodeWord false 0x8120 = .ok (.mov 0x1 0x2) := by rfl
theorem test_decode_or : decodeWord false 0x8121 = .ok (.or 0x1 0x2) := by rfl
theorem test_decode_and : decodeWord false 0x8122 = .ok (.and 0x1 0x2) := by rfl
theorem test_decode_xor : decodeWord false 0x8123 = .ok (.xor 0x1 0x2) := by rfl
theorem test_decode_addReg : decodeWord false 0x8124 = .ok (.addReg 0x1 0x2) := by rfl
theorem test_decode_sub : decodeWord false 0x8125 = .ok (.sub 0x1 0x2) := by rfl
theorem test_decode_shr : decodeWord false 0x8126 = .ok (.shr 0x1 0x2) := by rfl
theorem test_decode_subn : decodeWord false 0x8127 = .ok (.subn 0x1 0x2) := by rfl
theorem test_decode_shl : decodeWord false 0x812E = .ok (.shl 0x1 0x2) := by rfl
theorem test_decode_sneReg : decodeWord false 0x9120 = .ok (.sneReg 0x1 0x2) := by rfl
theorem test_decode_mviI : decodeWord false 0xA123 = .ok (.mviI 0x123) := by rfl
theorem test_decode_jpV0 : decodeWord false 0xB300 = .ok (.jpV0 0x300) := by rfl
theorem test_decode_rnd : decodeWord false 0xC30F = .ok (.rnd 0x3 0x0F) := by rfl
theorem test_decode_drw : decodeWord false 0xD125 = .ok (.drw 0x1 0x2 0x5) := by rfl
theorem test_decode_skp : decodeWord false 0xE29E = .ok (.skp 0x2) := by rfl
theorem test_decode_sknp : decodeWord false 0xE2A1 = .ok (.sknp 0x2) := by rfl
theorem test_decode_movVxDt : decodeWord false 0xF207 = .ok (.movVxDt 0x2) := by rfl
theorem test_decode_waitkey : decodeWord false 0xF30A = .ok (.waitkey 0x3) := by rfl
theorem test_decode_movDtVx : decodeWord false 0xF115 = .ok (.movDtVx 0x1) := by rfl
theorem test_decode_movStVx : decodeWord false 0xF118 = .ok (.movStVx 0x1) := by rfl
theorem test_decode_addI : decodeWord false 0xF51E = .ok (.addI 0x5) := by rfl
theorem test_decode_font : decodeWord false 0xF729 = .ok (.font 0x7) := by rfl
theorem test_decode_bcd : decodeWord false 0xF333 = .ok (.bcd 0x3) := by rfl
theorem test_decode_stm : decodeWord false 0xF255 = .ok (.stm 0x2) := by rfl
theorem test_decode_ldm : decodeWord false 0xF165 = .ok (.ldm 0x1) := by rfl

/-- Memory is big-endian (R52): the first byte is the high one. -/
theorem test_decode_bytes : decodeBytes false [0x6A, 0x2F, 0xFF] = .ok (.mvi 0xA 0x2F, [0xFF]) := by rfl

/-- The host's numbering: a word's bit 0 is the table's bit 0. -/
theorem test_decode_table_word : decodeTableWord 16 0x6A2F = some (.mvi 0xA 0x2F) := by decide

/-- V-D8, V-D9: the low nibble counts in families 5 and 9, unless `loose_5_9`. -/
theorem test_decode_loose : decodeWord false 0x5121 = .error (.family5 0x5121) ∧
    decodeWord true 0x9121 = .ok (.sneReg 0x1 0x2) := ⟨by rfl, by rfl⟩

/-- V-D15. -/
theorem test_decode_undefined : decodeWord false 0xF008 = .error (.familyF 0xF008) ∧
    decodeWord false 0xE09F = .error (.familyE 0xE09F) ∧ decodeWord false 0x800D = .error (.family8 0x800D) :=
  ⟨by rfl, by rfl, by rfl⟩

/-! ### One step -/

/-- The reset state with registers set. -/
def withRegs (vs : List (Nibble × Byte)) (s : State := State.reset) : State :=
  vs.foldl (fun t p => t.setV p.1 p.2) s

/-- What a question about the state after one step of the word w answers. -/
def after {α : Type} (w : Nat) (s : State) (ask : State → α) : Option α :=
  match step (s.withFetchWord 16 w) with
  | .next t => some (ask t)
  | .fault _ => none
  | .refused _ => none

/-- The set pixels among those asked about. -/
def pixels (ps : List Nat) (t : State) : List Bool := ps.map t.screen.getLsbD

/-- The two meanings of the open parameter (R119). -/
def ordered (o : VfDestOrder) (s : State) : State := { s with params := { Params.nominal with vfDestOrder := o } }

/-- V-D1: SYS under the default. -/
theorem test_sys_fails : after 0x0123 State.reset (fun t => (t.pc, t.faultOut)) =
    some (0x200, some (1, 0x200, 0x0123)) := by decide
/-- V-D6: SYS under `nop_advance`. -/
theorem test_sys_nop : after 0x0123 { State.reset with params := { Params.nominal with sys0nnn := .nopAdvance } }
    (fun t => (t.pc, t.faultOut)) = some (0x202, none) := by decide
/-- V-C1. -/
theorem test_jp : after 0x1234 State.reset (·.pc) = some 0x234 := by decide
/-- V-C3. -/
theorem test_call : after 0x2ABC { State.reset with pc := 0x210, stack := [0x200] } (fun t => (t.pc, t.stack)) =
    some (0xABC, [0x200, 0x210]) := by decide
/-- R103: a full bounded stack. -/
theorem test_call_full : after 0x2ABC { State.reset with
      stack := [0x300], params := { Params.nominal with stackCapacity := some 1 } } (fun t => (t.stack, t.faultOut)) =
    some ([0x300], some (4, 0x200, 0x2ABC)) := by decide
/-- V-C4. -/
theorem test_ret : after 0x00EE { State.reset with stack := [0x300, 0x204] } (fun t => (t.pc, t.stack)) =
    some (0x206, [0x300]) := by decide
/-- V-C5. -/
theorem test_ret_empty : after 0x00EE State.reset (fun t => (t.pc, t.stack)) = some (0x0002, []) := by decide
/-- V-C7. -/
theorem test_seImm : after 0x3A0B (withRegs [(0xA, 0x0B)]) (·.pc) = some 0x204 := by decide
/-- V-C9. -/
theorem test_sneImm : after 0x4A0B (withRegs [(0xA, 0x0B)]) (·.pc) = some 0x202 := by decide
/-- V-C10. -/
theorem test_seReg : after 0x5120 (withRegs [(1, 7), (2, 7)]) (·.pc) = some 0x204 := by decide
/-- V-C11. -/
theorem test_sneReg : after 0x9120 (withRegs [(1, 7), (2, 8)]) (·.pc) = some 0x204 := by decide
/-- V-C12. -/
theorem test_jpV0 : after 0xB300 (withRegs [(0, 0xFF)]) (·.pc) = some 0x3FF := by decide
/-- V-C13: the sum is not masked to 12 bits. -/
theorem test_jpV0_beyond : after 0xBFFF (withRegs [(0, 0xFF)]) (·.pc) = some 0x10FE := by decide
/-- V-A1. -/
theorem test_mvi : after 0x6A2F State.reset (·.getV 0xA) = some 0x2F := by decide
/-- W1. -/
theorem test_addImm_wraps : after 0x7002 (withRegs [(0, 0xFF)]) (fun t => (t.getV 0, t.getV 15)) = some (0x01, 0x00) := by decide
/-- V-A3. -/
theorem test_mov : after 0x8120 (withRegs [(2, 9)]) (·.getV 1) = some 9 := by decide
/-- V-A4. -/
theorem test_or : after 0x8121 (withRegs [(1, 0x0F), (2, 0xF0), (15, 0x55)]) (fun t => (t.getV 1, t.getV 15)) =
    some (0xFF, 0x55) := by decide
/-- V-A5. -/
theorem test_and : after 0x8122 (withRegs [(1, 0x3C), (2, 0x0F)]) (·.getV 1) = some 0x0C := by decide
/-- V-A6. -/
theorem test_xor : after 0x8123 (withRegs [(1, 0xFF), (2, 0x0F)]) (·.getV 1) = some 0xF0 := by decide
/-- V-A10: y = F reads the old VF. -/
theorem test_addReg : after 0x81F4 (withRegs [(1, 0x10), (15, 0xF5)]) (fun t => (t.getV 1, t.getV 15)) =
    some (0x05, 1) := by decide
/-- V-F1: the open parameter decides VF as the destination. -/
theorem test_addReg_vf : after 0x8F14 (ordered .flagLast (withRegs [(15, 0xFF), (1, 3)])) (·.getV 15) = some 0x01 ∧
    after 0x8F14 (ordered .resultLast (withRegs [(15, 0xFF), (1, 3)])) (·.getV 15) = some 0x02 := by decide
/-- V-A12. -/
theorem test_sub : after 0x8015 (withRegs [(0, 5), (1, 6)]) (fun t => (t.getV 0, t.getV 15)) = some (0xFF, 0) := by decide
/-- V-A11: equal operands do not borrow. -/
theorem test_sub_equal : after 0x8015 (withRegs [(0, 5), (1, 5)]) (fun t => (t.getV 0, t.getV 15)) = some (0, 1) := by decide
/-- V-A18: y is ignored. -/
theorem test_shr : after 0x8016 (withRegs [(0, 4), (1, 0xFF)]) (fun t => (t.getV 0, t.getV 1, t.getV 15)) =
    some (0x02, 0xFF, 0) := by decide
/-- W4. -/
theorem test_shr_flag : after 0x8006 (withRegs [(0, 0xA5)]) (fun t => (t.getV 0, t.getV 15)) = some (0x52, 1) := by decide
/-- V-A15. -/
theorem test_subn : after 0x8017 (withRegs [(0, 5), (1, 3)]) (fun t => (t.getV 0, t.getV 15)) = some (0xFE, 0) := by decide
/-- V-A21: the flag is 0x80, not 1. -/
theorem test_shl : after 0x800E (withRegs [(0, 0x81)]) (fun t => (t.getV 0, t.getV 15)) = some (0x02, 0x80) := by decide
/-- V-A22, whatever the draw is: the mask keeps its low nibble, and one draw is used. -/
theorem test_rnd : after 0xC30F State.reset (fun t => (t.getV 3, t.draws)) = some (Config.rnd 0 &&& 0x0F, 1) := by rfl
/-- V-I1. -/
theorem test_mviI : after 0xA123 State.reset (·.index) = some 0x123 := by decide
/-- V-I2: modulo 65536. -/
theorem test_addI_wraps : after 0xF01E (withRegs [(0, 0x10)] { State.reset with index := 0xFFF8 }) (·.index) =
    some 0x0008 := by decide
/-- V-I3: no flag. -/
theorem test_addI_no_flag : after 0xF51E (withRegs [(5, 0xFF), (15, 0x42)] { State.reset with index := 0x0F01 })
    (fun t => (t.index, t.getV 15)) = some (0x1000, 0x42) := by decide
/-- V-I6, width 16. -/
theorem test_font : after 0xF029 (withRegs [(0, 0x34)]) (·.index) = some 0x104 := by decide
/-- V-I6, width 8. -/
theorem test_font_w8 : after 0xF029 (withRegs [(0, 0x34)]
    { State.reset with params := { Params.nominal with fontMulWidth := .w8 } }) (·.index) = some 0x04 := by decide
/-- V-I8 and V-I10: the last three bytes of memory. -/
theorem test_bcd : after 0xF033 (withRegs [(0, 255)] { State.reset with index := 0xFFD })
    (fun t => [0xFFD, 0xFFE, 0xFFF].map t.readByte) = some [2, 5, 5] := by decide
/-- V-I11: nothing is written before the fault. -/
theorem test_bcd_out_of_range : after 0xF033 (withRegs [(0, 255)] { State.reset with index := 0xFFE })
    (fun t => (t.faultOut, t.readByte 0xFFE)) = some (some (3, 0x200, 0x1000), 0) := by decide
/-- V-I12. -/
theorem test_stm : after 0xF255 (withRegs [(0, 1), (1, 2), (2, 3), (3, 4)] { State.reset with index := 0x400 })
    (fun t => ([0x400, 0x401, 0x402, 0x403].map t.readByte, t.index)) = some ([1, 2, 3, 0], 0x400) := by decide
/-- V-I14. -/
theorem test_stm_out_of_range : after 0xFF55 { State.reset with index := 0xFF1 } (·.faultOut) =
    some (some (3, 0x200, 0x1000)) := by decide
/-- V-I15. -/
theorem test_ldm : after 0xF165 ((withRegs [(2, 0x77)] { State.reset with index := 0x400 }).writeBytes 0x400 [0xAA, 0xBB, 0xCC])
    (fun t => [0, 1, 2].map t.getV) = some [0xAA, 0xBB, 0x77] := by decide
/-- V-I16: the font is readable. -/
theorem test_ldm_font : after 0xFF65 State.reset (fun t => t.regs.toList) =
    some [0xF0, 0x90, 0x90, 0x90, 0xF0, 0x20, 0x60, 0x20, 0x20, 0x70, 0xF0, 0x10, 0xF0, 0x80, 0xF0, 0xF0] := by decide
/-- V-S1. -/
theorem test_cls : after 0x00E0 { State.reset with screen := 0x0E } (fun t => (t.screen, t.redraw)) = some (0, true) := by
  decide +kernel
/-- V-S4: a pixel that goes from 1 to 0 is a hit. -/
theorem test_drw_hit : after 0xD011 (({ State.reset with index := 0x300, screen := 0x02 } : State).writeByte 0x300 0xC0)
    (fun t => (t.screen, t.getV 15, t.redraw)) = some (0x01, 1, true) := by decide +kernel
/-- V-S9: the flat wrap of the origin, and rows 64 pixels apart. -/
theorem test_drw_wraps : after 0xD012 ((withRegs [(0, 0xFF), (1, 0xFF)]
      { State.reset with index := 0x300 }).writeBytes 0x300 [0x81, 0x81])
    (fun t => (pixels [191, 198, 255, 262, 192, 190, 254] t, t.getV 15)) =
    some ([true, true, true, true, false, false, false], 0) := by decide +kernel
/-- V-K3: the whole byte is tested. -/
theorem test_skp : after 0xE29E (withRegs [(2, 0x15)] { State.reset with keys := [5] }) (·.pc) = some 0x202 := by decide
/-- V-K1. -/
theorem test_skp_held : after 0xE29E (withRegs [(2, 5)] { State.reset with keys := [5] }) (·.pc) = some 0x204 := by decide
/-- V-K5. -/
theorem test_sknp : after 0xE2A1 (withRegs [(2, 5)] { State.reset with keys := [5] }) (·.pc) = some 0x202 := by decide
/-- V-K7. -/
theorem test_waitkey_none : after 0xF30A State.reset (fun t => (t.pc, t.awaiting)) = some (0x200, true) := by decide
/-- V-K8: the last inserted key. -/
theorem test_waitkey_last : after 0xF30A { State.reset with keys := [7, 3], awaiting := true }
    (fun t => (t.getV 3, t.pc, t.awaiting)) = some (3, 0x202, false) := by decide
/-- V-T5: a tie reads the greater value, and the even one under the other value of the parameter. -/
theorem test_movVxDt : after 0xF207 { State.reset with delayTimer := mkRat 25 2 } (·.getV 2) = some 13 ∧
    after 0xF207 { State.reset with
      delayTimer := mkRat 25 2, params := { Params.nominal with dtRoundTies := .toEven } } (·.getV 2) = some 12 := by decide
/-- V-T8: 0.49999999999999994 reads 0. -/
theorem test_movVxDt_below_half : after 0xF207 { State.reset with delayTimer := mkRat (2 ^ 53 - 1) (2 ^ 54) } (·.getV 2) =
    some 0 := by decide
/-- V-T1: 1 decays to the number of binary64 that prints as 0.9, in the cycle of the write. -/
theorem test_movDtVx : after 0xF115 (withRegs [(1, 1)]) (·.delayTimer) = some (mkRat 0x1CCCCCCCCCCCCD (2 ^ 53)) := by decide
/-- V-T9. -/
theorem test_movStVx : after 0xF118 (withRegs [(1, 1)]) (fun t => (t.soundTimer, t.shouldPlaySound)) =
    some (mkRat 0x1CCCCCCCCCCCCD (2 ^ 53), true) := by decide

/-! ### The cycle -/

/-- V-C17: a halted state does not change, timers included. -/
theorem test_halted : after 0x6005 { State.reset with delayTimer := 1, fault := some ⟨.decodeFailure, 0x200, 0x0123⟩ }
    (fun t => (t.pc, t.delayTimer)) = some (0x200, 1) := by decide
/-- V-C16. -/
theorem test_fetch_out_of_range : after 0x6005 { State.reset with pc := 0xFFF } (·.faultOut) =
    some (some (2, 0xFFF, 0xFFF)) := by decide
/-- V-C15: the last word of memory is fetched. -/
theorem test_fetch_last_word : after 0x0000 { State.reset with pc := 0xFFE } (·.faultOut) =
    some (some (1, 0xFFE, 0x0000)) := by decide
/-- V-K14: frozen. -/
theorem test_frozen : after 0x6005 { State.reset with awaiting := true, delayTimer := 1 }
    (fun t => (t.getV 0, t.pc, t.delayTimer)) = some (0, 0x200, mkRat 0x1CCCCCCCCCCCCD (2 ^ 53)) := by decide

/-! ### Host moves -/

/-- V-R1: the first cycle with nothing placed. -/
theorem test_reset_first_cycle : (match step State.reset with | .next t => t.faultOut | .fault _ => none | .refused _ => none) =
    some (1, 0x200, 0x0000) := by decide
/-- V-K11: the order of insertion. -/
theorem test_key_order : (((({ State.reset with keys := [1] } : State).press 2).release 1).press 1).keys = [2, 1] := by decide
/-- V-K12. -/
theorem test_key_code : keyDown 0x10 State.reset = .refused (.keyCodeOutOfRange 0x10) := by rfl
/-- V-R3: load clears a fault. -/
theorem test_load_clears_fault :
    (match load [0x60, 0x05] { State.reset with fault := some ⟨.decodeFailure, 0x200, 0⟩ } with
      | .next t => some (t.fault, t.readByte 0x201) | .fault _ => none | .refused _ => none) = some (none, 0x05) := by decide
/-- R242, R244: after start the scheduler is Loaded-Running at 0x200, with and without a periodic timer. -/
theorem test_start : ∀ timer : Bool,
    (match (⟨.unloaded, timer, State.reset⟩ : Scheduler).start [0x00, 0xE0] with
      | .next c => some (c.phase, c.machine.pc, c.machine.readByte 0x201) | .fault _ => none | .refused _ => none) =
    some (.loadedRunning, 0x200, 0xE0) := by decide +kernel
/-- R226: without a periodic timer stop and resume change nothing; with one they do. -/
theorem test_stop_resume :
    (⟨.loadedRunning, false, State.reset⟩ : Scheduler).stop.phase = .loadedRunning ∧
    (⟨.loadedRunning, true, State.reset⟩ : Scheduler).stop.phase = .loadedStopped ∧
    (⟨.loadedStopped, true, State.reset⟩ : Scheduler).resume.phase = .loadedRunning := by decide
/-- W10: the facade renders once and acknowledges. -/
theorem test_tick : (match (⟨.loadedRunning, true, State.reset.withFetchWord 16 0x00E0⟩ : Scheduler).tick with
      | .next r => some (r.1.machine.redraw, r.2.frame.isSome, r.1.machine.pc) | .fault _ => none | .refused _ => none) =
    some (false, true, 0x202) := by decide

/-! ### A state and operands that meet the hypotheses of each statement that has some

One theorem per statement, with every clause of it at a boundary of its range. A statement not named here has no hypothesis
beyond "exec (or step) answers a next state", which every state meets. -/

/-- A word stored at the pc of the reset state with these parameters. -/
def fetching (w : Nat) (p : Params := Params.nominal) : State := ({ State.reset with params := p } : State).withFetchWord 16 w

theorem fetches (w : Nat) (p : Params) (v : Word) (h : (fetching w p).fetch = some v) : (fetching w p).Fetches v :=
  ⟨by simp [fetching, State.withFetchWord, State.Safe, State.writeBytes, State.writeByte, State.reset], h,
    .inl (by simp [fetching, State.withFetchWord, State.writeBytes, State.writeByte, State.reset])⟩

def loose : Params := { Params.nominal with loose59 := true }
def bounded : Params := { Params.nominal with stackCapacity := some 1 }
def nop : Params := { Params.nominal with sys0nnn := .nopAdvance }
def toEven : Params := { Params.nominal with dtRoundTies := .toEven }

theorem witness_EncodeThenDecode : Instr.wellFormed (.sys 0x0E1) = true ∧ Instr.wellFormed (.drw 0xF 0xF 0xF) = true := by decide

theorem witness_DecodeThenEncode : decodeWord false 0x00E1 = .ok (.sys 0x0E1) ∧ decodeWord false 0xFF65 = .ok (.ldm 0xF) :=
  ⟨by rfl, by rfl⟩

theorem witness_LowNibbleOfFamilies5And9 : (0x1 : Nibble) ≠ 0 ∧ (0xF : Nibble) ≠ 0 ∧
    (fetching 0x5121).Fetches (formXYN 0x5 1 2 0x1) ∧ (fetching 0x512F loose).Fetches (formXYN 0x5 1 2 0xF) ∧
    (fetching 0x9121).Fetches (formXYN 0x9 1 2 0x1) ∧ (fetching 0x912F loose).Fetches (formXYN 0x9 1 2 0xF) ∧
    (fetching 0x5121).params.loose59 = false ∧ (fetching 0x512F loose).params.loose59 = true ∧
    (fetching 0x9121).params.loose59 = false ∧ (fetching 0x912F loose).params.loose59 = true :=
  ⟨by decide, by decide, fetches _ _ _ (by decide), fetches _ _ _ (by decide),
    fetches _ _ _ (by decide), fetches _ _ _ (by decide), by decide, by decide, by decide, by decide⟩

theorem witness_RegisterSkips : (0x1 : Nibble) ≠ 0 ∧ (0xF : Nibble) ≠ 0 ∧ State.reset.params.loose59 = false := by decide

theorem witness_RndMasksOneDraw : (∀ x nn, Instr.drw 0 0 0xF ≠ .rnd x nn) ∧ ∃ t, exec (.drw 0 0 0xF) State.reset = .next t :=
  ⟨fun _ _ => by simp, _, by rfl⟩

theorem witness_UndefinedWordsFail : (fetching 0x800F).Fetches 0x800F ∧ (fetching 0xE09F).Fetches 0xE09F ∧
    (fetching 0xF0FF).Fetches 0xF0FF ∧ wordFamily 0x800F = 0x8 ∧
    wordN 0x800F ∈ ([0x8, 0x9, 0xA, 0xB, 0xC, 0xD, 0xF] : List Nibble) ∧ wordFamily 0xE09F = 0xE ∧
    wordNN 0xE09F ∉ ([0x9E, 0xA1] : List Byte) ∧ wordFamily 0xF0FF = 0xF ∧
    wordNN 0xF0FF ∉ ([0x07, 0x0A, 0x15, 0x18, 0x1E, 0x29, 0x33, 0x55, 0x65] : List Byte) :=
  ⟨fetches _ _ _ (by decide), fetches _ _ _ (by decide), fetches _ _ _ (by decide),
    by decide, by decide, by decide, by decide, by decide, by decide⟩

/-- At the last word of memory, and a key-wait while awaiting. -/
theorem witness_StepRunsDecodedInstruction :
    (({ State.reset with pc := 0xFFE } : State).withFetchWord 16 0x6005).Runs (.mvi 0 0x05) ∧
    (({ State.reset with awaiting := true } : State).withFetchWord 16 0xF30A).Runs (.waitkey 3) :=
  ⟨⟨by decide, by decide, ⟨[], by rfl⟩, .inl (by decide)⟩, ⟨by decide, by decide, ⟨[], by rfl⟩, .inr ⟨3, rfl⟩⟩⟩

theorem witness_HaltedStateStays : ({ State.reset with fault := some ⟨.stackOverflow, 0x200, 0x2300⟩ } : State).fault ≠ none := by decide

theorem witness_FetchOutsideMemoryFaults : ({ State.reset with pc := 0xFFF } : State).Safe ∧
    ({ State.reset with pc := 0xFFF } : State).pc.toNat + 1 > 4095 := by decide

theorem witness_FrozenCycleOnlyDecays :
    let s := ({ State.reset with awaiting := true } : State).withFetchWord 16 0x6005
    s.Safe ∧ s.fetch = some 0x6005 ∧ s.awaiting = true ∧ ¬ (wordFamily 0x6005 = 0xF ∧ wordNN 0x6005 = 0x0A) :=
  ⟨by decide, by decide, by decide, by decide⟩

theorem witness_DecodeFailureChangesNothingElse : (fetching 0x8008).Fetches 0x8008 ∧
    decodeWord (fetching 0x8008).params.loose59 0x8008 = .error (.family8 0x8008) :=
  ⟨fetches _ _ _ (by decide), by rfl⟩

/-- One faulting step for each code of R201: MemoryOutOfRange at the first address that is out of range. -/
theorem witness_FaultsArePreciseAndCaused :
    after 0x6005 { State.reset with pc := 0xFFF } (·.fault) = some (some ⟨.fetchOutOfRange, 0xFFF, 0xFFF⟩) ∧
    after 0x0123 State.reset (·.fault) = some (some ⟨.decodeFailure, 0x200, 0x0123⟩) ∧
    after 0xF033 { State.reset with index := 0xFFE } (·.fault) = some (some ⟨.memoryOutOfRange, 0x200, 0x1000⟩) ∧
    after 0x2ABC { State.reset with stack := [0x300], params := bounded } (·.fault) =
      some (some ⟨.stackOverflow, 0x200, 0x2ABC⟩) := by decide

theorem witness_SysFollowsParameter : (0x0E1 : Addr) ∉ ([0x0E0, 0x0EE] : List Addr) ∧
    Params.nominal.sys0nnn = .decodeFailure ∧ nop.sys0nnn = .nopAdvance := by decide

/-- No capacity, one place left, and full. -/
theorem witness_CallPushesItsAddress : State.reset.params.stackCapacity ≠ some State.reset.stack.length ∧
    bounded.stackCapacity ≠ some ([] : List Word).length ∧ bounded.stackCapacity = some ([0x300] : List Word).length := by decide

theorem witness_RetPopsAndAddsTwo :
    ({ State.reset with stack := [0x300, 0x204] } : State).stack = [0x300] ++ [0x204] ∧ State.reset.stack = [] := by decide

theorem witness_CallThenRetReturns : State.reset.params.stackCapacity ≠ some State.reset.stack.length ∧
    ∃ u, exec (.call 0x300) State.reset = .next u ∧ u.stack = u.stack := ⟨by decide, _, by rfl, rfl⟩

theorem reset_memory_wf : State.reset.memory.wf State.reset.params.font := by decide

/-- In range up to the last byte of memory, and out of range by one. -/
theorem witness_BcdStoresDigits : ({ State.reset with index := 0xFFD } : State).memory.wf gk2Font ∧
    ({ State.reset with index := 0xFFD } : State).InRange 3 ∧ ¬ ({ State.reset with index := 0xFFE } : State).InRange 3 :=
  ⟨reset_memory_wf, by decide, by decide⟩

theorem witness_StmStoresRegisters : ({ State.reset with index := 0xFF0 } : State).memory.wf gk2Font ∧
    ({ State.reset with index := 0xFF0 } : State).InRange ((0xF : Nibble).toNat + 1) ∧
    ¬ ({ State.reset with index := 0xFF1 } : State).InRange ((0xF : Nibble).toNat + 1) :=
  ⟨reset_memory_wf, by decide, by decide⟩

theorem witness_LdmLoadsRegisters : ({ State.reset with index := 0xFFF } : State).InRange ((0x0 : Nibble).toNat + 1) ∧
    ¬ ({ State.reset with index := 0xFFF } : State).InRange ((0x1 : Nibble).toNat + 1) := by decide

theorem witness_StmThenLdmReproduces : State.reset.memory.wf State.reset.params.font ∧
    State.reset.InRange ((0xF : Nibble).toNat + 1) ∧
    ∃ u, exec (.stm 0xF) State.reset = .next u ∧ u.index = State.reset.index ∧
      ∀ k ≤ (0xF : Nibble).toNat, u.readByte (State.reset.index.toNat + k) = u.readByte (State.reset.index.toNat + k) :=
  ⟨reset_memory_wf, by decide, _, by rfl, by simp, fun _ _ => rfl⟩

/-- The last word of memory, the last pair that STM of all registers stores there, and BCD's digits there. -/
theorem witness_StoredBytesAreFetched : ({ State.reset with pc := 0xFFE } : State).pc.toNat + 1 ≤ 4095 ∧
    State.reset.memory.wf State.reset.params.font ∧ 14 < (0xF : Nibble).toNat ∧
    ({ State.reset with index := 0xFF0 } : State).InRange ((0xF : Nibble).toNat + 1) ∧
    (∃ t, exec (.stm 0xF) { State.reset with index := 0xFF0 } = .next t) ∧
    ({ State.reset with index := 0xFFD } : State).InRange 3 ∧
    (∃ t, exec (.bcd 0) { State.reset with index := 0xFFD } = .next t) :=
  ⟨by decide, reset_memory_wf, by decide, by decide, ⟨_, by rfl⟩, by decide, ⟨_, by rfl⟩⟩

theorem witness_SpriteBitsDoNotOverlap : (14 : Nat) < 15 ∧ (7 : Nat) < 8 ∧
    pixelAddr 0xFF 0xFF 14 7 = pixelAddr 0xFF 0xFF 14 7 := by decide

/-- No row at any I, one row at the last byte of memory, and two rows there. -/
theorem witness_DrwInvertsSpritePixels : ({ State.reset with index := 0xFFFF } : State).InRange (0x0 : Nibble).toNat ∧
    ({ State.reset with index := 0xFFF } : State).InRange (0x1 : Nibble).toNat ∧
    ¬ ({ State.reset with index := 0xFFF } : State).InRange (0x2 : Nibble).toNat := by decide

theorem witness_WaitkeyTakesLastKey : State.reset.keys = [] ∧
    ({ State.reset with keys := [7, 3] } : State).keys = [7] ++ [3] := by decide

/-- A timer in range, by evaluation. -/
theorem inRange {p : Params} {t : Rat} (h : p.timerFormat.round t = t ∧ -p.timerDelta ≤ t ∧ t ≤ 255) : TimerInRange p t :=
  ⟨(p.timerFormat.representable_iff t).mpr h.1, h.2⟩

/-- Nominal timers: the least value, the greatest, and a tie under each value of the parameter. -/
theorem witness_RoundDTIsNearest : (Params.nominal.Legal ∧ toEven.Legal ∧ mkRat (-0x1999999999999A) (2 ^ 56) < 0 ∧
      (Params.nominal.roundDT (mkRat 25 2)).toNat = 13 ∧ (toEven.roundDT (mkRat 25 2)).toNat = 12) ∧
    TimerInRange Params.nominal (mkRat (-0x1999999999999A) (2 ^ 56)) ∧ TimerInRange Params.nominal (mkRat 255 1) ∧
    TimerInRange Params.nominal (mkRat 25 2) ∧ TimerInRange toEven (mkRat 25 2) :=
  ⟨by decide +kernel, inRange (by decide +kernel), inRange (by decide +kernel), inRange (by decide +kernel),
    inRange (by decide +kernel)⟩

theorem witness_DecayOfOneTimer : (0 : Rat) < mkRat 1 20 ∧ (0 : Rat) ≤ 0 := by decide

/-- A tie: 2 ^ 53 + 1 lies between 2 ^ 53, which has the even significand, and 2 ^ 53 + 2. -/
theorem witness_RoundingIsToNearest : TimerFormat.binary64.Representable (2 ^ 53 + 2 : Nat) ∧
    TimerFormat.binary64.round (2 ^ 53 + 1 : Nat) = (2 ^ 53 : Nat) ∧
    |((2 ^ 53 + 2 : Nat) : Rat) - (2 ^ 53 + 1 : Nat)| = |TimerFormat.binary64.round (2 ^ 53 + 1 : Nat) - (2 ^ 53 + 1 : Nat)| := by
  have e : TimerFormat.binary64.round (2 ^ 53 + 1 : Nat) = (2 ^ 53 : Nat) := by decide
  refine ⟨⟨2 ^ 52 + 1, 1, by decide, by decide, by norm_num⟩, e, ?_⟩
  rw [e]
  norm_num

/-- A state with a running timer, a key and a bounded stack that is full, and a step from it. -/
def busy : State := { State.reset with delayTimer := 255, keys := [3, 7], stack := [0x300], params := bounded }

theorem busy_wf : busy.Wf where
  memory := reset_memory_wf
  keys := by decide
  delayTimer := inRange (by decide +kernel)
  soundTimer := inRange (by decide +kernel)
  params := by decide +kernel
  stack := by decide

theorem witness_StepKeepsWellFormedState : busy.Wf ∧ ∃ t, step busy = .next t := ⟨busy_wf, _, by rfl⟩

/-- A key held and one not held, each pressed and released, and a ROM loaded. -/
theorem witness_HostMovesKeepWellFormedState : busy.Wf ∧ (∃ t, keyDown 7 busy = .next t) ∧ (∃ t, keyDown 15 busy = .next t) ∧
    (∃ t, keyUp 3 busy = .next t) ∧ (∃ t, keyUp 15 busy = .next t) ∧
    (match load [0x60] busy with | .next _ => true | .fault _ => false | .refused _ => false) = true :=
  ⟨busy_wf, ⟨_, by rfl⟩, ⟨_, by rfl⟩, ⟨_, by rfl⟩, ⟨_, by rfl⟩, by decide +kernel⟩

/-- A register changes that is a destination, and the rest are asked about. -/
theorem witness_OnlyTheseRegistersChange : (∃ t, exec (.addReg 0 1) State.reset = .next t) ∧
    (2 : Nibble) ∉ regsWritten (.addReg 0 1) ∧ (15 : Nibble) ∉ regsWritten (.or 0 1) :=
  ⟨⟨_, by rfl⟩, by decide, by decide⟩

/-- CLS changes the screen and sets redraw; redraw that is set stays set. -/
theorem witness_OnlyDrawingChangesDisplay :
    after 0x00E0 { State.reset with screen := 0x0E } (fun t => (t.screen, t.redraw)) = some (0, true) ∧
    after 0x6005 { State.reset with redraw := true } (·.redraw) = some true := by decide +kernel

theorem witness_OnlyTheseChangeIndexAndStack : after 0xA123 State.reset (·.index) = some 0x123 ∧
    after 0x2300 State.reset (·.stack) = some [0x200] := by decide

theorem witness_OnlyStoresChangeMemory : after 0xF055 (withRegs [(0, 1)] { State.reset with index := 0xFFF })
    (fun t => t.readByte 0xFFF) = some 1 ∧ State.reset.readByte 0xFFF = 0 := by decide

theorem witness_KeysFaultAndAwaitingRules : after 0xF30A State.reset (·.awaiting) = some true ∧
    after 0x6005 { State.reset with fault := some ⟨.decodeFailure, 0x200, 0⟩ } (·.fault) =
      some (some ⟨.decodeFailure, 0x200, 0⟩) := by decide

/-- The longest ROM (V-R2). -/
theorem witness_LoadBuildsFreshState : State.reset.params.Legal ∧ (List.replicate 3584 (0xFF : Byte)).length ≤ 3584 :=
  ⟨by decide, List.length_replicate.le⟩

/-- timer_delta exactly 0.5 is refused (R210), and so is one byte too many (V-R2). -/
theorem witness_LoadRefusals : ¬ ({ Params.nominal with cycleHz := 120 } : Params).Legal ∧
    State.reset.params.Legal ∧ (List.replicate 3585 (0xFF : Byte)).length > 3584 :=
  ⟨by decide, by decide, List.length_replicate.ge⟩

theorem witness_KeyEvents : (16 : Nat) ≤ 16 ∧ (15 : Nat) < 16 ∧ BitVec.ofNat 4 15 ∉ State.reset.keys ∧
    BitVec.ofNat 4 15 ∈ ({ State.reset with keys := [3, 15, 7] } : State).keys ∧ BitVec.ofNat 4 15 ∉ ([3] : List Nibble) ∧
    ({ State.reset with keys := [3, 15, 7] } : State).keys = [3] ++ BitVec.ofNat 4 15 :: [7] := by decide

theorem witness_SchedulerTick : (∃ s, step State.reset = .next s) ∧
    (⟨.unloaded, true, State.reset⟩ : Scheduler).phase = .unloaded ∧
    (⟨.loadedStopped, true, State.reset⟩ : Scheduler).phase ≠ .unloaded := ⟨⟨_, by rfl⟩, by decide, by decide⟩

end Sys2Proof.Tests
end

section
/-! PROOFS. The whole-machine rules of the state: what a step keeps (R20 to R37), and the states that reset, load and the
host's other moves leave (R38, R215, R221, R240). -/

namespace Sys2Proof.Machine

variable {s t u : State} {i : Instr}

/-! ### What an instruction does to each part of the state that the invariants speak of -/

/-- `exec_cases` for an outcome already known. -/
theorem exec_frame_or_raise (h : exec i s = .next t) : s.Frame t (touches s i) ∨ ∃ c n, t = s.raise c n := by
  obtain ⟨u, hu, hc⟩ := exec_cases i s
  rw [h] at hu
  cases hu
  exact hc

theorem exec_keys (h : exec i s = .next t) : t.keys = s.keys := by
  rcases exec_frame_or_raise h with f | ⟨c, n, rfl⟩
  · exact f.keys
  · rfl

theorem exec_params (h : exec i s = .next t) : t.params = s.params := by
  rcases exec_frame_or_raise h with f | ⟨c, n, rfl⟩
  · exact f.params
  · rfl

theorem State.writeRF_memory (x : Nibble) (r f : Byte) : (s.writeRF x r f).memory = s.memory := by
  rw [State.writeRF_eq]

/-- An instruction leaves memory as some block store does, which is the empty one for all but BCD and STM. -/
theorem exec_memory (h : exec i s = .next t) : ∃ a vs, t.memory = (s.writeBytes a vs).memory := by
  have kept (e : t.memory = s.memory) : ∃ a vs, t.memory = (s.writeBytes a vs).memory := ⟨0, [], e⟩
  cases i with
  | bcd x | stm x =>
    rcases State.accessing_cases s _ _ _ h with rfl | rfl
    · exact ⟨_, _, rfl⟩
    · exact kept rfl
  | drw x y n | ldm x => rcases State.accessing_cases s _ _ _ h with rfl | rfl <;> exact kept rfl
  | addReg x y | sub x y | shr x y | subn x y | shl x y =>
    cases h
    exact kept (State.writeRF_memory x _ _)
  | sys nnn =>
    simp only [exec, execSys] at h
    split at h <;> cases h <;> exact kept rfl
  | call nnn =>
    simp only [exec, execCall] at h
    split at h <;> cases h <;> exact kept rfl
  | waitkey x =>
    simp only [exec, execWaitkey] at h
    split at h <;> cases h <;> exact kept rfl
  | _ =>
    cases h
    exact kept rfl

theorem exec_delayTimer (h : exec i s = .next t) :
    t.delayTimer = s.delayTimer ∨ ∃ v, t.delayTimer = realOfByte v := by
  rcases exec_frame_or_raise h with f | ⟨c, n, rfl⟩
  · cases i with
    | movDtVx x =>
      cases h
      exact .inr ⟨_, rfl⟩
    | _ => exact .inl (f.delayTimer rfl)
  · exact .inl rfl

theorem exec_soundTimer (h : exec i s = .next t) :
    t.soundTimer = s.soundTimer ∨ ∃ v, t.soundTimer = realOfByte v := by
  rcases exec_frame_or_raise h with f | ⟨c, n, rfl⟩
  · cases i with
    | movStVx x =>
      cases h
      exact .inr ⟨_, rfl⟩
    | _ => exact .inl (f.soundTimer rfl)
  · exact .inl rfl

/-- The stack is kept, pushed to when it is not full (R103), or popped (R104). -/
theorem exec_stack (h : exec i s = .next t) :
    t.stack = s.stack ∨ (s.stackFull = false ∧ ∃ a, t.stack = s.stack ++ [a]) ∨ t.stack = s.stack.dropLast := by
  rcases exec_frame_or_raise h with f | ⟨c, n, rfl⟩
  · cases i with
    | call nnn =>
      simp only [exec, execCall] at h
      split at h <;> rename_i hfull <;> cases h
      · exact .inl rfl
      · exact .inr (.inl ⟨Bool.eq_false_iff.mpr hfull, _, rfl⟩)
    | ret =>
      cases h
      exact .inr (.inr rfl)
    | _ => exact .inl (f.stack rfl)
  · exact .inl rfl

/-- No instruction clears the redraw flag (R32). -/
theorem exec_redraw (h : exec i s = .next t) : t.redraw = s.redraw ∨ t.redraw = true := by
  rcases exec_frame_or_raise h with f | ⟨c, n, rfl⟩
  · cases i with
    | cls =>
      cases h
      exact .inr rfl
    | drw x y n =>
      rcases State.accessing_cases s _ _ _ h with rfl | rfl
      · exact .inr rfl
      · exact .inl rfl
    | _ => exact .inl (f.redraw rfl)
  · exact .inl rfl

/-! ### The invariants of R35 -/

/-- A byte as a timer is in range (R177, R178). -/
theorem timerInRange_realOfByte {p : Params} (hp : p.Legal) (v : Byte) : TimerInRange p (realOfByte v) := by
  obtain ⟨-, -, hpos, -⟩ := hp
  have hv : v.toNat ≤ 255 := by have := v.isLt; omega
  have hlo : (0 : ℚ) ≤ realOfByte v := Nat.cast_nonneg _
  exact ⟨p.timerFormat.natCast_representable hv, by linarith, by unfold realOfByte; exact_mod_cast hv⟩

theorem timerInRange_zero {p : Params} (hp : p.Legal) : TimerInRange p 0 :=
  timerInRange_realOfByte hp 0

/-- One decay keeps a timer in range (R211). -/
theorem timerInRange_decay {p : Params} (hp : p.Legal) {d : Rat} (h : TimerInRange p d) :
    TimerInRange p (p.decay d) := by
  obtain ⟨-, -, hpos, -⟩ := hp
  obtain ⟨hrep, hlo, hhi⟩ := h
  exact ⟨p.decay_representable hrep, p.decay_bounds hpos hlo hhi⟩

theorem State.stackFull_eq_false_iff : s.stackFull = false ↔ ∀ c ∈ s.params.stackCapacity, s.stack.length ≠ c := by
  unfold State.stackFull
  cases s.params.stackCapacity <;> simp

theorem exec_stackWithin (hs : s.StackWithin) (h : exec i s = .next t) : t.StackWithin := by
  intro c hc
  rw [exec_params h] at hc
  have hlen := hs c hc
  rcases exec_stack h with e | ⟨hroom, a, e⟩ | e
  · rwa [e]
  · have := State.stackFull_eq_false_iff.mp hroom c hc
    rw [e, List.length_append, List.length_singleton]
    omega
  · rw [e, List.length_dropLast]
    omega

/-- The invariants do not speak of the fault record. -/
theorem State.Wf.raise (h : s.Wf) (c : FaultCode) (n : Nat) : (s.raise c n).Wf :=
  ⟨h.memory, h.keys, h.delayTimer, h.soundTimer, h.params, h.stack⟩

theorem State.Wf.redrawAck (h : s.Wf) : s.redrawAck.Wf :=
  ⟨h.memory, h.keys, h.delayTimer, h.soundTimer, h.params, h.stack⟩

theorem State.Wf.timerDecay (h : s.Wf) : s.timerDecay.Wf :=
  ⟨h.memory, h.keys, timerInRange_decay h.params h.delayTimer, timerInRange_decay h.params h.soundTimer, h.params, h.stack⟩

theorem State.Wf.endCycle (h : s.Wf) : s.endCycle.Wf := by
  rw [State.endCycle_eq]
  split
  · exact h.timerDecay
  · exact h

theorem exec_wf (hs : s.Wf) (h : exec i s = .next t) : t.Wf where
  memory := by
    obtain ⟨a, vs, e⟩ := exec_memory h
    rw [e, exec_params h]
    exact State.writeBytes_wf s hs.memory a vs
  keys := by
    rw [exec_keys h]
    exact hs.keys
  delayTimer := by
    rw [exec_params h]
    rcases exec_delayTimer h with e | ⟨v, e⟩ <;> rw [e]
    · exact hs.delayTimer
    · exact timerInRange_realOfByte hs.params v
  soundTimer := by
    rw [exec_params h]
    rcases exec_soundTimer h with e | ⟨v, e⟩ <;> rw [e]
    · exact hs.soundTimer
    · exact timerInRange_realOfByte hs.params v
  params := by
    rw [exec_params h]
    exact hs.params
  stack := exec_stackWithin hs.stack h

/-- Settles O48: each of the five cases of a cycle (R80) keeps the invariants. -/
theorem stepKeepsWellFormedState : Obligations.StepKeepsWellFormedState := by
  unfold Obligations.StepKeepsWellFormedState
  intro s t hs h
  rcases step_cases h with ⟨_, rfl⟩ | ⟨_, _, rfl⟩ | ⟨w, _, _, _, rfl⟩ | ⟨w, e, _, _, _, _, rfl⟩ |
    ⟨w, i, u, _, _, _, _, hx, rfl⟩
  · exact hs
  · exact hs.raise _ _
  · exact hs.timerDecay
  · exact hs.raise _ _
  · exact (exec_wf hs hx).endCycle

/-! ### What one instruction and one step may change -/

/-- The registers of the frame are the destinations of R21 and R22. -/
theorem touches_regs (s : State) (i : Instr) : (touches s i).regs = regsWritten i := by
  cases i <;> rfl

/-- Settles O50: the frame of `exec_cases`, whose registers are the destinations. -/
theorem onlyTheseRegistersChange : Obligations.OnlyTheseRegistersChange := by
  unfold Obligations.OnlyTheseRegistersChange
  intro i s t h z hz
  rcases exec_frame_or_raise h with f | ⟨c, n, rfl⟩
  · exact f.regs z (by rwa [touches_regs])
  · rfl

/-- What a cycle may change when its instruction may change `w`: the decay and a fault come on top. -/
def Touches.inCycle (w : Touches) : Touches := { w with delayTimer := true, soundTimer := true, fault := true }

theorem State.Frame.refl (s : State) (w : Touches) : s.Frame s w where
  regs _ _ := rfl
  memory _ _ := rfl
  index _ := rfl
  stack _ := rfl
  screen _ := rfl
  redraw _ := rfl
  delayTimer _ := rfl
  soundTimer _ := rfl
  awaiting _ := rfl
  fault _ := rfl
  draws _ := rfl
  keys := rfl
  params := rfl

/-- A frame survives any change of the timers and the fault record, when it is read for a whole cycle. -/
theorem State.Frame.inCycle {w : Touches} (f : s.Frame u w) (o : Option FaultRecord) (d e : Rat) :
    s.Frame { u with fault := o, delayTimer := d, soundTimer := e } w.inCycle where
  regs := f.regs
  memory := f.memory
  index := f.index
  stack := f.stack
  screen := f.screen
  redraw := f.redraw
  delayTimer h := nomatch h
  soundTimer h := nomatch h
  awaiting := f.awaiting
  fault h := nomatch h
  draws := f.draws
  keys := f.keys
  params := f.params

/-- `step_frame` as a frame: a step without an instruction changes at most the timers and the fault record. -/
theorem step_frame_inCycle (h : step s = .next t) :
    s.Frame t ({} : Touches).inCycle ∨ ∃ i, s.current = some i ∧ s.Frame t (touches s i).inCycle := by
  rcases step_frame h with ⟨o, ht⟩ | ⟨i, u, _, hc, f, ht, _⟩
  · rw [ht]
    exact .inl ((State.Frame.refl s {}).inCycle _ _ _)
  · rw [ht]
    exact .inr ⟨i, hc, f.inCycle _ _ _⟩

/-- A part of the state that a step changes is one that the current instruction touches. -/
theorem step_changed {α : Type} {part : State → α} (touch : Touches → Bool) (idle : touch {} = false)
    (kept : ∀ {w : Touches}, s.Frame t w.inCycle → touch w = false → part t = part s)
    (h : step s = .next t) (hne : part t ≠ part s) : ∃ i, s.current = some i ∧ touch (touches s i) = true := by
  rcases step_frame_inCycle h with f | ⟨i, hc, f⟩
  · exact absurd (kept f idle) hne
  · exact ⟨i, hc, by_contra fun hi => hne (kept f (by simpa using hi))⟩

theorem touches_display (h : (touches s i).display = true) : i = .cls ∨ ∃ x y n, i = .drw x y n := by
  cases i with
  | cls => exact .inl rfl
  | drw x y n => exact .inr ⟨x, y, n, rfl⟩
  | _ => cases h

theorem touches_index (h : (touches s i).index = true) :
    (∃ nnn, i = .mviI nnn) ∨ (∃ x, i = .addI x) ∨ ∃ x, i = .font x := by
  cases i with
  | mviI nnn => exact .inl ⟨nnn, rfl⟩
  | addI x => exact .inr (.inl ⟨x, rfl⟩)
  | font x => exact .inr (.inr ⟨x, rfl⟩)
  | _ => cases h

theorem touches_stack (h : (touches s i).stack = true) : (∃ nnn, i = .call nnn) ∨ i = .ret := by
  cases i with
  | call nnn => exact .inl ⟨nnn, rfl⟩
  | ret => exact .inr rfl
  | _ => cases h

theorem touches_awaiting (h : (touches s i).awaiting = true) : ∃ x, i = .waitkey x := by
  cases i with
  | waitkey x => exact ⟨x, rfl⟩
  | _ => cases h

/-- No step clears the redraw flag (R32). -/
theorem step_redraw (h : step s = .next t) : t.redraw = s.redraw ∨ t.redraw = true := by
  rcases step_frame h with ⟨o, ht⟩ | ⟨i, u, hx, _, _, ht, _⟩
  · rw [ht]
    exact .inl rfl
  · have := exec_redraw hx
    rw [ht]
    exact this

/-- A step that changes the screen or the redraw flag runs an instruction that touches the display. -/
theorem step_display_changed (h : step s = .next t) (hne : t.screen ≠ s.screen ∨ t.redraw ≠ s.redraw) :
    ∃ i, s.current = some i ∧ (touches s i).display = true := by
  rcases hne with hne | hne
  · exact step_changed Touches.display rfl (fun f => f.screen) h hne
  · exact step_changed Touches.display rfl (fun f => f.redraw) h hne

/-- Settles O51: what touches the display is CLS or DRW, and both set the redraw flag. -/
theorem onlyDrawingChangesDisplay : Obligations.OnlyDrawingChangesDisplay := by
  unfold Obligations.OnlyDrawingChangesDisplay
  refine fun s t h => ⟨fun hne => ?_, fun hr => ?_⟩
  · obtain ⟨i, hc, hi⟩ := step_display_changed h hne
    rcases touches_display hi with rfl | ⟨x, y, n, rfl⟩
    · exact .inl hc
    · exact .inr ⟨x, y, n, hc⟩
  · rcases step_redraw h with e | e
    · rw [e, hr]
    · exact e

/-- Settles O52: I and the stack differ only where the current instruction touches them. -/
theorem onlyTheseChangeIndexAndStack : Obligations.OnlyTheseChangeIndexAndStack := by
  unfold Obligations.OnlyTheseChangeIndexAndStack
  refine fun s t h => ⟨fun hne => ?_, fun hne => ?_⟩
  · obtain ⟨i, hc, hi⟩ := step_changed Touches.index rfl (fun f => f.index) h hne
    rcases touches_index hi with ⟨nnn, rfl⟩ | ⟨x, rfl⟩ | ⟨x, rfl⟩
    · exact ⟨nnn, 0, .inl hc⟩
    · exact ⟨0, x, .inr (.inl hc)⟩
    · exact ⟨0, x, .inr (.inr hc)⟩
  · obtain ⟨i, hc, hi⟩ := step_changed Touches.stack rfl (fun f => f.stack) h hne
    rcases touches_stack hi with ⟨nnn, rfl⟩ | rfl
    · exact ⟨nnn, .inl hc⟩
    · exact ⟨0, .inr hc⟩

/-- A halted machine stays as it is (R81). -/
theorem step_of_fault (hs : s.fault ≠ none) : step s = .next s := by
  simp [step, State.halted, Option.isSome_iff_ne_none, hs]

theorem step_keys_params (h : step s = .next t) : t.keys = s.keys ∧ t.params = s.params := by
  rcases step_frame_inCycle h with f | ⟨i, _, f⟩ <;> exact ⟨f.keys, f.params⟩

/-- Settles O54: every frame keeps keys and parameters, a halted machine stays, and the key-wait alone touches awaiting. -/
theorem keysFaultAndAwaitingRules : Obligations.KeysFaultAndAwaitingRules := by
  unfold Obligations.KeysFaultAndAwaitingRules
  intro s t h
  obtain ⟨hkeys, hparams⟩ := step_keys_params h
  refine ⟨hkeys, hparams, fun hs => ?_, fun hne => ?_⟩
  · rw [step_of_fault hs] at h
    cases h
    rfl
  · obtain ⟨i, hc, hi⟩ := step_changed Touches.awaiting rfl (fun f => f.awaiting) h hne
    obtain ⟨x, rfl⟩ := touches_awaiting hi
    exact ⟨x, hc⟩

/-! ### Reset and load (R38, R240, R241) -/

theorem resetByte_of_lt {font : Vector Byte 80} {a : Nat} (h : a < 80) : resetByte font a = font[a] := dif_pos h

theorem resetByte_of_le {font : Vector Byte 80} {a : Nat} (h : 80 ≤ a) : resetByte font a = 0 := dif_neg (by omega)

theorem State.reset_getV (x : Nibble) : State.reset.getV x = 0 := by
  simp [State.getV, State.reset]

/-- Every pixel of the empty screen is 0. -/
theorem State.reset_pixel (p : Nat) : State.reset.screen.getLsbD p = false := BitVec.getLsbD_zero

/-- Settles O55: the reset state, field by field, and its empty memory read through `resetByte`. -/
theorem resetState : Obligations.ResetState := by
  unfold Obligations.ResetState
  exact ⟨State.reset_getV, rfl, rfl, rfl, fun p _ => State.reset_pixel p, rfl, rfl, rfl, rfl, rfl, rfl,
    fun _ h => resetByte_of_lt h, fun _ h => resetByte_of_le h⟩

/-- A loaded state has the invariants, whatever the state before. -/
theorem State.fresh_keeps_wf (hp : s.params.Legal) (rom : List Byte) : (s.fresh rom).Wf where
  memory := by
    rw [congrArg State.params (s.fresh_eq rom)]
    exact s.fresh_wf rom
  keys := by
    rw [s.fresh_eq]
    exact List.nodup_nil
  delayTimer := by
    rw [s.fresh_eq]
    exact timerInRange_zero hp
  soundTimer := by
    rw [s.fresh_eq]
    exact timerInRange_zero hp
  params := by
    rw [s.fresh_eq]
    exact hp
  stack := by
    rw [s.fresh_eq]
    exact fun c _ => Nat.zero_le c

/-- Settles O49: reset is the load of an empty ROM in the nominal configuration, which is legal. -/
theorem resetIsWellFormed : Obligations.ResetIsWellFormed := by
  unfold Obligations.ResetIsWellFormed
  exact State.reset.fresh_keeps_wf (by decide) []

/-- The one way `load` has a move (R240, R241). -/
theorem load_eq_next_iff {rom : List Byte} :
    load rom s = .next t ↔ s.params.Legal ∧ rom.length ≤ maxRomLength ∧ t = s.fresh rom := by
  constructor
  · intro h
    unfold load at h
    split at h <;> rename_i hp
    · cases h
    · split at h <;> rename_i hr <;> cases h
      exact ⟨not_not.mp hp, not_lt.mp hr, rfl⟩
  · rintro ⟨hp, hr, rfl⟩
    rw [load, if_neg (not_not.mpr hp), if_neg (not_lt.mpr hr)]

/-! The image of a loaded ROM, region by region (R241). -/

section
variable {rom : List Byte} (s : State) (hr : rom.length ≤ maxRomLength) {a : Nat}
include hr

theorem State.fresh_readByte_of_lt (ha : a < romBase) : (s.fresh rom).readByte a = resetByte s.params.font a := by
  rw [s.fresh_readByte rom hr, if_neg (by omega)]

theorem State.fresh_readByte_rom {k : Nat} (hk : k < rom.length) : (s.fresh rom).readByte (romBase + k) = rom[k] := by
  rw [s.fresh_readByte rom hr, if_pos (by omega), Nat.add_sub_cancel_left, List.getD_eq_getElem _ _ hk]

theorem State.fresh_readByte_of_ge (ha : romBase + rom.length ≤ a) : (s.fresh rom).readByte a = 0 := by
  have hbase : 80 ≤ romBase := by decide
  rw [s.fresh_readByte rom hr, if_pos (by omega), List.getD_eq_default _ _ (by omega), resetByte_of_le (by omega)]

end

/-- Settles O56: the image by region, the other fields those of the reset state, and the invariants. -/
theorem loadBuildsFreshState : Obligations.LoadBuildsFreshState := by
  unfold Obligations.LoadBuildsFreshState
  intro s rom hp hr
  have hbase : romBase = 0x200 := rfl
  have hwf := State.fresh_keeps_wf hp rom
  refine ⟨s.fresh rom, load_eq_next_iff.mpr ⟨hp, hr, rfl⟩, fun a ha => ?_, fun a hlo hhi => ?_,
    fun k hk => s.fresh_readByte_rom hr hk, fun a ha => s.fresh_readByte_of_ge hr ha, ?_⟩
  · rw [s.fresh_readByte_of_lt hr (by omega), resetByte_of_lt ha]
  · rw [s.fresh_readByte_of_lt hr hhi, resetByte_of_le hlo]
  · rw [s.fresh_eq] at hwf ⊢
    exact ⟨State.reset_getV, rfl, rfl, rfl, fun p _ => State.reset_pixel p, rfl, rfl, rfl, rfl, rfl, rfl, rfl, hwf⟩

/-! ### The host's other moves (R215, R221) -/

theorem keyDown_eq_next {k : Nat} (h : keyDown k s = .next t) : t = s.press (BitVec.ofNat 4 k) := by
  unfold keyDown at h
  split at h <;> cases h
  rfl

theorem keyUp_eq_next {k : Nat} (h : keyUp k s = .next t) : t = s.release (BitVec.ofNat 4 k) := by
  unfold keyUp at h
  split at h <;> cases h
  rfl

/-- Moves of the key set alone keep the invariants when they repeat no key. -/
theorem State.Wf.setKeys (h : s.Wf) {ks : List Nibble} (hk : ks.Nodup) : ({ s with keys := ks } : State).Wf :=
  ⟨h.memory, hk, h.delayTimer, h.soundTimer, h.params, h.stack⟩

/-- A key is appended only when it is not held (R215). -/
theorem State.Wf.press (h : s.Wf) (k : Nibble) : (s.press k).Wf := by
  refine h.setKeys ?_
  split
  · exact h.keys
  · rw [← List.concat_eq_append]
    exact h.keys.concat ‹_›

theorem State.Wf.release (h : s.Wf) (k : Nibble) : (s.release k).Wf :=
  h.setKeys (h.keys.erase k)

/-- Settles O60: each move's state keeps the invariants. -/
theorem hostMovesKeepWellFormedState : Obligations.HostMovesKeepWellFormedState := by
  unfold Obligations.HostMovesKeepWellFormedState
  refine fun s hs => ⟨fun k t h => ?_, fun k t h => ?_, fun rom t h => ?_, hs.redrawAck⟩
  · rw [keyDown_eq_next h]
    exact hs.press _
  · rw [keyUp_eq_next h]
    exact hs.release _
  · obtain ⟨hp, _, rfl⟩ := load_eq_next_iff.mp h
    exact State.fresh_keeps_wf hp rom

end Sys2Proof.Machine
end

section
/-! PROOFS. Memory (R50 to R66): what a fetch reads, what a store leaves for it, and which bytes a step can change. -/

namespace Sys2Proof.Machine

variable {s t u : State} {i : Instr}

/-! ### The fetch (R53, R55) -/

/-- A step of a running machine whose fetch has no second byte. -/
theorem step_of_fetch_none (hs : s.fault = none) (hf : s.fetch = none) :
    step s = .next (s.raise .fetchOutOfRange s.pc.toNat) := by
  simp [step, State.halted, hs, hf]

/-- Settles O10: there is no word to fetch, and the fault of R55 changes the record alone. -/
theorem fetchOutsideMemoryFaults : Obligations.FetchOutsideMemoryFaults := by
  unfold Obligations.FetchOutsideMemoryFaults
  intro s hs hpc
  exact step_of_fetch_none hs (s.fetch_eq_none_iff.mpr hpc)

/-- The number that a fetch reads, big-endian (R52, R53). -/
theorem State.fetch_toNat (hpc : s.pc.toNat + 1 < memSize) : s.fetch.map BitVec.toNat =
    some (256 * (s.readByte s.pc.toNat).toNat + (s.readByte (s.pc.toNat + 1)).toNat) := by
  rw [(s.fetch_eq_some_iff _).mpr ⟨hpc, rfl⟩, Option.map_some, wordOfBytes_toNat]

theorem State.fetch_setPc_toNat {pc : Word} {n : Nat} (hpc : pc.toNat = n) (hn : n + 1 < memSize) :
    (s.setPc pc).fetch.map BitVec.toNat = some (256 * (s.readByte n).toNat + (s.readByte (n + 1)).toNat) := by
  subst hpc
  exact State.fetch_toNat hn

/-! ### The bytes that BCD and STM store (R143, R144) -/

/-- A byte of a block that was just stored. -/
theorem State.readByte_writeBytes_add (hs : s.memory.wf s.params.font) {a k : Nat} {vs : List Byte}
    (hin : a + vs.length ≤ memSize) (hk : k < vs.length) : (s.writeBytes a vs).readByte (a + k) = vs[k] := by
  rw [s.readByte_writeBytes hs a vs _ hin, if_pos (Nat.le_add_right a k), Nat.add_sub_cancel_left,
    List.getD_eq_getElem _ _ hk]

/-- R144: STM stores Vk at I + k. -/
theorem exec_stm_readByte {x : Nibble} (hs : s.memory.wf s.params.font) (hr : s.InRange (x.toNat + 1))
    (h : exec (.stm x) s = .next t) {k : Nat} (hk : k ≤ x.toNat) :
    t.readByte (s.index.toNat + k) = s.getV (BitVec.ofNat 4 k) := by
  have hlen := s.length_regsUpTo x
  have hin : s.ea 0 + (s.regsUpTo x).length ≤ memSize := by
    rw [hlen]
    exact hr.resolve_left (Nat.succ_ne_zero _)
  have hk16 : k < 16 := Nat.lt_of_le_of_lt hk x.isLt
  rw [exec, execStm, State.accessing_ok s _ _ hr] at h
  cases h
  calc (s.writeBytes (s.ea 0) (s.regsUpTo x)).readByte (s.ea 0 + k)
    _ = (s.regsUpTo x)[k] := State.readByte_writeBytes_add hs hin (by omega)
    _ = s.getV (BitVec.ofNat 4 k) := by simp [State.regsUpTo, State.getV, Nat.mod_eq_of_lt hk16]

/-- R143: BCD stores the three digits of Vx from I on. -/
theorem exec_bcd_readByte_toNat {x : Nibble} (hs : s.memory.wf s.params.font) (hr : s.InRange 3)
    (h : exec (.bcd x) s = .next t) :
    (t.readByte s.index.toNat).toNat = (s.getV x).toNat / 100 ∧
    (t.readByte (s.index.toNat + 1)).toNat = (s.getV x).toNat / 10 % 10 ∧
    (t.readByte (s.index.toNat + 2)).toNat = (s.getV x).toNat % 10 := by
  rw [exec, execBcd, State.accessing_ok s _ _ hr] at h
  cases h
  have stored (k : Nat) (hk : k < 3) :
      (s.writeBytes (s.ea 0) (bcdDigits (s.getV x))).readByte (s.ea 0 + k) = (bcdDigits (s.getV x))[k] :=
    State.readByte_writeBytes_add hs (hr.resolve_left (by decide)) hk
  have digits := bcdDigits_value (s.getV x)
  simp only [bcdDigits, List.map_cons, List.map_nil, List.cons.injEq, and_true] at digits
  obtain ⟨hundreds, tens, ones⟩ := digits
  exact ⟨(congrArg BitVec.toNat (stored 0 (by decide))).trans hundreds,
    (congrArg BitVec.toNat (stored 1 (by decide))).trans tens,
    (congrArg BitVec.toNat (stored 2 (by decide))).trans ones⟩

/-- Settles O35: a fetch is the two bytes at the pc, and those that STM and BCD leave are the registers and the digits. -/
theorem storedBytesAreFetched : Obligations.StoredBytesAreFetched := by
  unfold Obligations.StoredBytesAreFetched
  have hmem : memSize = 4096 := rfl
  refine ⟨fun s hpc => State.fetch_toNat (Nat.lt_succ_of_le hpc), fun s t x k hs hk hr h => ?_,
    fun s t x hs hr h => ?_⟩
  · have hend : s.index.toNat + (x.toNat + 1) ≤ memSize := hr.resolve_left (Nat.succ_ne_zero _)
    have hpc : (s.index + BitVec.ofNat 16 k).toNat = s.index.toNat + k := by
      rw [BitVec.toNat_add, BitVec.toNat_ofNat]
      omega
    rw [State.fetch_setPc_toNat hpc (by omega), exec_stm_readByte hs hr h hk.le, Nat.add_assoc,
      exec_stm_readByte hs hr h hk]
  · have hend : s.index.toNat + 3 ≤ memSize := hr.resolve_left (by decide)
    have hpc : (s.index + 1).toNat = s.index.toNat + 1 := BitVec.toNat_add_of_lt (by simp; omega)
    obtain ⟨hundreds, tens, ones⟩ := exec_bcd_readByte_toNat hs hr h
    constructor
    · rw [State.fetch_setPc_toNat rfl (by omega), hundreds, tens]
    · rw [State.fetch_setPc_toNat hpc (by omega), tens, ones]

/-! ### The bytes that a step can change (R51, R56) -/

/-- The bytes an instruction touches: none, or for BCD and STM those from I on that it accesses. -/
theorem touches_bytes (s : State) (i : Instr) :
    (touches s i).bytes = (0, 0) ∨
    ∃ x, (i = .bcd x ∨ i = .stm x) ∧ (touches s i).bytes = (s.index.toNat, bytesAccessed i) := by
  cases i with
  | bcd x => exact .inr ⟨x, .inl rfl, rfl⟩
  | stm x => exact .inr ⟨x, .inr rfl, rfl⟩
  | _ => exact .inl rfl

/-- A byte that an instruction changes is one that BCD or STM, with all its bytes in memory, stores to. -/
theorem exec_readByte_changed {a : Nat} (h : exec i s = .next u) (hne : u.readByte a ≠ s.readByte a) :
    ∃ x, (i = .bcd x ∨ i = .stm x) ∧ s.InRange (bytesAccessed i) ∧
      s.index.toNat ≤ a ∧ a < s.index.toNat + bytesAccessed i := by
  have hr : s.InRange (bytesAccessed i) := by
    rcases exec_inRange_or_raise h with hr | ⟨-, rfl⟩
    · exact hr
    · exact absurd rfl hne
  rcases exec_frame_or_raise h with f | ⟨c, n, rfl⟩
  · have hin := not_imp_comm.mp (f.memory a) hne
    rcases touches_bytes s i with e | ⟨x, hi, e⟩ <;> rw [e] at hin
    · omega
    · exact ⟨x, hi, hr, hin⟩
  · exact absurd rfl hne

/-- A byte that a step changes is one that its instruction changes: a fault and the decay leave memory alone. -/
theorem step_readByte_changed {a : Nat} (h : step s = .next t) (hne : t.readByte a ≠ s.readByte a) :
    ∃ i u, s.current = some i ∧ exec i s = .next u ∧ u.readByte a ≠ s.readByte a := by
  rcases step_frame h with ⟨o, ht⟩ | ⟨i, u, hx, hc, -, ht, -⟩ <;> rw [ht] at hne
  · exact absurd rfl hne
  · exact ⟨i, u, hc, hx, hne⟩

/-- Settles O53: a changed byte is one the current instruction changed, which is BCD or STM within its bytes. -/
theorem onlyStoresChangeMemory : Obligations.OnlyStoresChangeMemory := by
  unfold Obligations.OnlyStoresChangeMemory
  intro s t h a hne
  obtain ⟨i, u, hc, hx, hu⟩ := step_readByte_changed h hne
  obtain ⟨x, hi, hr, hlo, hhi⟩ := exec_readByte_changed hx hu
  exact ⟨i, x, hc, hi, hr, hlo, hhi⟩

end Sys2Proof.Machine
end

section
/-! PROOFS. Encoding (30_encoding.md): the decoder against the encoder (R70 to R79), the words that decode, counted (R79), and
the cycle around a decoded word (R80 to R83). -/

namespace Sys2Proof

variable {loose : Bool} {w : Word} {i : Instr}

/-! ### The decoder, family by family -/

theorem decodeWord_of_family0 (h : wordFamily w = 0x0) : decodeWord loose w = .ok (decodeFamily0 w) := by
  simp [decodeWord, h]

theorem decodeWord_of_family5 (h : wordFamily w = 0x5) : decodeWord loose w = decodeFamily5 loose w := by
  simp [decodeWord, h]

theorem decodeWord_of_family8 (h : wordFamily w = 0x8) : decodeWord loose w = decodeFamily8 w := by
  simp [decodeWord, h]

theorem decodeWord_of_family9 (h : wordFamily w = 0x9) : decodeWord loose w = decodeFamily9 loose w := by
  simp [decodeWord, h]

theorem decodeWord_of_familyE (h : wordFamily w = 0xE) : decodeWord loose w = decodeFamilyE w := by
  simp [decodeWord, h]

theorem decodeWord_of_familyF (h : wordFamily w = 0xF) : decodeWord loose w = decodeFamilyF w := by
  simp [decodeWord, h]

theorem decodeWord_formXYN_5 (x y n : Nibble) : decodeWord loose (formXYN 0x5 x y n) =
    if loose || n == 0 then .ok (.seReg x y) else .error (.family5 (formXYN 0x5 x y n)) := by
  rw [decodeWord_of_family5 (wordFamily_formXYN ..), decodeFamily5, wordX_formXYN, wordY_formXYN, wordN_formXYN]

theorem decodeWord_formXYN_9 (x y n : Nibble) : decodeWord loose (formXYN 0x9 x y n) =
    if loose || n == 0 then .ok (.sneReg x y) else .error (.family9 (formXYN 0x9 x y n)) := by
  rw [decodeWord_of_family9 (wordFamily_formXYN ..), decodeFamily9, wordX_formXYN, wordY_formXYN, wordN_formXYN]

/-! ### Decode after encode (R73, R74) -/

theorem formNNN_inj {f : Nibble} {a b : Addr} : formNNN f a = formNNN f b ↔ a = b :=
  ⟨fun h => by simpa using congrArg wordNNN h, congrArg _⟩

/-- R74 on the word 0NNN: the two words of CLS and RET are 0NNN with NNN 0x0E0 and 0x0EE. -/
theorem decodeFamily0_formNNN (nnn : Addr) : decodeFamily0 (formNNN 0x0 nnn) =
    if nnn = 0x0E0 then .cls else if nnn = 0x0EE then .ret else .sys nnn := by
  have hcls : (0x00E0 : Word) = formNNN 0x0 0x0E0 := rfl
  have hret : (0x00EE : Word) = formNNN 0x0 0x0EE := rfl
  simp only [decodeFamily0, hcls, hret, formNNN_inj, wordNNN_formNNN]

/-- Settles O3: the word 0NNN is in family 0. -/
theorem familyZeroDecodesWholeWord : Obligations.FamilyZeroDecodesWholeWord := by
  unfold Obligations.FamilyZeroDecodesWholeWord
  intro loose nnn
  rw [decodeWord_of_family0 (wordFamily_formNNN 0x0 nnn), decodeFamily0_formNNN]

/-- Settles O1: the fields of the word of i are those of i, and its family's rule gives i back. -/
theorem encodeThenDecode : Obligations.EncodeThenDecode := by
  unfold Obligations.EncodeThenDecode
  intro loose i hi
  cases i with
  | cls | ret => rfl
  | sys nnn =>
    simp only [Instr.wellFormed, Bool.and_eq_true, bne_iff_ne] at hi
    obtain ⟨hcls, hret⟩ := hi
    exact (familyZeroDecodesWholeWord loose nnn).trans (congrArg _ ((if_neg hcls).trans (if_neg hret)))
  | seReg x y => exact (decodeWord_formXYN_5 x y 0x0).trans (if_pos (by simp))
  | sneReg x y => exact (decodeWord_formXYN_9 x y 0x0).trans (if_pos (by simp))
  | mov x y | or x y | and x y | xor x y | addReg x y | sub x y | shr x y | subn x y | shl x y =>
    simp [encodeWord, decodeWord_of_family8, decodeFamily8]
  | skp x | sknp x => simp [encodeWord, decodeWord_of_familyE, decodeFamilyE]
  | movVxDt x | waitkey x | movDtVx x | movStVx x | addI x | font x | bcd x | stm x | ldm x =>
    simp [encodeWord, decodeWord_of_familyF, decodeFamilyF]
  | jp nnn | call nnn | mviI nnn | jpV0 nnn => simp [encodeWord, decodeWord]
  | seImm x nn | sneImm x nn | mvi x nn | addImm x nn | rnd x nn => simp [encodeWord, decodeWord]
  | drw x y n => simp [encodeWord, decodeWord]

/-- Settles O7: each sample is the word of the term it stands for. -/
theorem sampleWordsDecode : Obligations.SampleWordsDecode := by
  unfold Obligations.SampleWordsDecode
  exact ⟨encodeThenDecode false .cls rfl, encodeThenDecode false (.call 0xABC) rfl,
    encodeThenDecode false (.seImm 0xA 0x0B) rfl, encodeThenDecode false (.addReg 0xF 0x2) rfl,
    encodeThenDecode false (.shr 0x0 0x1) rfl, encodeThenDecode false (.mviI 0x2F0) rfl,
    encodeThenDecode false (.drw 0x0 0x1 0x2) rfl, encodeThenDecode false (.skp 0x2) rfl,
    encodeThenDecode false (.waitkey 0x3) rfl, encodeThenDecode false (.ldm 0x2) rfl⟩

/-! ### Encode after decode (R73, R79) -/

theorem formNNN_eq_of_family {f : Nibble} (hf : (wordFamily w).toNat = f.toNat) : formNNN f (wordNNN w) = w := by
  rw [← BitVec.eq_of_toNat_eq hf, formNNN_fields]

theorem formXNN_eq_of_family {f : Nibble} (hf : (wordFamily w).toNat = f.toNat) :
    formXNN f (wordX w) (wordNN w) = w := by
  rw [← BitVec.eq_of_toNat_eq hf, formXNN_fields]

theorem formXNN_eq_of_low {f : Nibble} {nn : Byte} (hf : (wordFamily w).toNat = f.toNat)
    (hnn : (wordNN w).toNat = nn.toNat) : formXNN f (wordX w) nn = w := by
  rw [← BitVec.eq_of_toNat_eq hnn, formXNN_eq_of_family hf]

theorem formXYN_eq_of_family {f : Nibble} (hf : (wordFamily w).toNat = f.toNat) :
    formXYN f (wordX w) (wordY w) (wordN w) = w := by
  rw [← BitVec.eq_of_toNat_eq hf, formXYN_fields]

theorem formXYN_eq_of_low {f n : Nibble} (hf : (wordFamily w).toNat = f.toNat)
    (hn : (wordN w).toNat = n.toNat) : formXYN f (wordX w) (wordY w) n = w := by
  rw [← BitVec.eq_of_toNat_eq hn, formXYN_eq_of_family hf]

/-- w is the word of the instruction i of R73. -/
def Instr.HasWord (i : Instr) (w : Word) : Prop := encodeWord i = w ∧ i.wellFormed = true

theorem decodeFamily0_hasWord (hf : (wordFamily w).toNat = 0x0) : (decodeFamily0 w).HasWord w := by
  have hw : formNNN 0x0 (wordNNN w) = w := formNNN_eq_of_family hf
  unfold decodeFamily0
  split
  · exact ⟨Eq.symm ‹_›, rfl⟩
  · split
    · exact ⟨Eq.symm ‹_›, rfl⟩
    · rename_i hcls hret
      refine ⟨hw, ?_⟩
      simp only [Instr.wellFormed, Bool.and_eq_true, bne_iff_ne]
      constructor <;> intro e <;> rw [e] at hw
      · exact hcls hw.symm
      · exact hret hw.symm

/-- What the test of families 5 and 9 lets through (R75). -/
theorem loose_or_formXYN_zero {f : Nibble} (hf : (wordFamily w).toNat = f.toNat) (hn : (loose || wordN w == 0) = true) :
    formXYN f (wordX w) (wordY w) 0x0 = w ∨ loose = true :=
  (Bool.or_eq_true_iff.mp hn).symm.imp_left fun hn => formXYN_eq_of_low hf (congrArg _ (eq_of_beq hn))

theorem decodeFamily5_hasWord (hf : (wordFamily w).toNat = 0x5) (h : decodeFamily5 loose w = .ok i) :
    i.HasWord w ∨ loose = true ∧ i = .seReg (wordX w) (wordY w) := by
  unfold decodeFamily5 at h
  split at h <;> cases h
  exact (loose_or_formXYN_zero hf ‹_›).imp (⟨·, rfl⟩) (⟨·, rfl⟩)

theorem decodeFamily9_hasWord (hf : (wordFamily w).toNat = 0x9) (h : decodeFamily9 loose w = .ok i) :
    i.HasWord w ∨ loose = true ∧ i = .sneReg (wordX w) (wordY w) := by
  unfold decodeFamily9 at h
  split at h <;> cases h
  exact (loose_or_formXYN_zero hf ‹_›).imp (⟨·, rfl⟩) (⟨·, rfl⟩)

theorem decodeFamily8_hasWord (hf : (wordFamily w).toNat = 0x8) (h : decodeFamily8 w = .ok i) : i.HasWord w := by
  unfold decodeFamily8 at h
  split at h <;> cases h
  all_goals exact ⟨formXYN_eq_of_low hf ‹_›, rfl⟩

theorem decodeFamilyE_hasWord (hf : (wordFamily w).toNat = 0xE) (h : decodeFamilyE w = .ok i) : i.HasWord w := by
  unfold decodeFamilyE at h
  split at h <;> cases h
  all_goals exact ⟨formXNN_eq_of_low hf ‹_›, rfl⟩

theorem decodeFamilyF_hasWord (hf : (wordFamily w).toNat = 0xF) (h : decodeFamilyF w = .ok i) : i.HasWord w := by
  unfold decodeFamilyF at h
  split at h <;> cases h
  all_goals exact ⟨formXNN_eq_of_low hf ‹_›, rfl⟩

/-- A decoded word is its instruction's word (R73), but for the low nibble that `loose_5_9` ignores (R75). -/
theorem decodeWord_hasWord (h : decodeWord loose w = .ok i) :
    i.HasWord w ∨ loose = true ∧ (i = .seReg (wordX w) (wordY w) ∨ i = .sneReg (wordX w) (wordY w)) := by
  unfold decodeWord at h
  split at h
  case h_1 => cases h; exact .inl (decodeFamily0_hasWord ‹_›)
  case h_6 => exact (decodeFamily5_hasWord ‹_› h).imp_right fun ⟨hl, e⟩ => ⟨hl, .inl e⟩
  case h_9 => exact .inl (decodeFamily8_hasWord ‹_› h)
  case h_10 => exact (decodeFamily9_hasWord ‹_› h).imp_right fun ⟨hl, e⟩ => ⟨hl, .inr e⟩
  case h_15 => exact .inl (decodeFamilyE_hasWord ‹_› h)
  case h_16 =>
    have hf : (wordFamily w).toNat = 0xF := by
      have := (wordFamily w).isLt
      simp only [imp_false] at *
      omega
    exact .inl (decodeFamilyF_hasWord hf h)
  case h_14 => cases h; exact .inl ⟨formXYN_eq_of_family ‹_›, rfl⟩
  case h_2 | h_3 | h_11 | h_12 => cases h; exact .inl ⟨formNNN_eq_of_family ‹_›, rfl⟩
  all_goals cases h; exact .inl ⟨formXNN_eq_of_family ‹_›, rfl⟩

/-- Settles O2: strict decoding ignores no low nibble. -/
theorem decodeThenEncode : Obligations.DecodeThenEncode := by
  unfold Obligations.DecodeThenEncode
  intro w i h
  exact (decodeWord_hasWord h).resolve_right fun ⟨hl, _⟩ => Bool.false_ne_true hl

/-- The word of the key-wait alone decodes to it (R82). -/
theorem isKeyWait_of_decodeWord_waitkey {x : Nibble} (h : decodeWord loose w = .ok (.waitkey x)) :
    isKeyWait w = true := by
  rcases decodeWord_hasWord h with ⟨hw, -⟩ | ⟨-, e | e⟩
  · rw [← hw]
    simp [encodeWord, isKeyWait]
  · cases e
  · cases e

/-! ### Words that do not decode (R75 to R78) -/

/-- The low nibbles of family 0x8 that have a row (R76). -/
def lowNibbles8 : List Nibble := [0x0, 0x1, 0x2, 0x3, 0x4, 0x5, 0x6, 0x7, 0xE]

/-- The low bytes of family 0xE that have a row (R77). -/
def lowBytesE : List Byte := [0x9E, 0xA1]

/-- The low bytes of family 0xF that have a row (R78). -/
def lowBytesF : List Byte := [0x07, 0x0A, 0x15, 0x18, 0x1E, 0x29, 0x33, 0x55, 0x65]

theorem decodeFamily8_eq_error (hn : wordN w ∉ lowNibbles8) : decodeFamily8 w = .error (.family8 w) := by
  unfold decodeFamily8
  split
  case h_10 => rfl
  all_goals simp [lowNibbles8, BitVec.toNat_eq, *] at hn

theorem decodeFamilyE_eq_error (hnn : wordNN w ∉ lowBytesE) : decodeFamilyE w = .error (.familyE w) := by
  unfold decodeFamilyE
  split
  case h_3 => rfl
  all_goals simp [lowBytesE, BitVec.toNat_eq, *] at hnn

theorem decodeFamilyF_eq_error (hnn : wordNN w ∉ lowBytesF) : decodeFamilyF w = .error (.familyF w) := by
  unfold decodeFamilyF
  split
  case h_10 => rfl
  all_goals simp [lowBytesF, BitVec.toNat_eq, *] at hnn

/-- The undefined low nibbles that R76 lists are those without a row. -/
theorem not_mem_lowNibbles8 : ∀ n ∈ ([0x8, 0x9, 0xA, 0xB, 0xC, 0xD, 0xF] : List Nibble), n ∉ lowNibbles8 := by
  decide

end Sys2Proof

namespace Sys2Proof.Machine

variable {s : State} {w : Word} {i : Instr}

/-! ### The cycle (R80 to R83) -/

theorem State.Fetches.frozen_eq_false (h : s.Fetches w) : s.frozen w = false :=
  (s.frozen_eq_false_iff w).mpr h.thawed

theorem State.Fetches.step_of_ok (h : s.Fetches w) (hd : decodeWord s.params.loose59 w = .ok i) :
    step s = endOutcome (exec i s) :=
  step_of_decoded h.safe h.fetched h.frozen_eq_false hd

theorem State.Fetches.step_of_error {e : DecodeError} (h : s.Fetches w)
    (hd : decodeWord s.params.loose59 w = .error e) : step s = .next (s.raise .decodeFailure w.toNat) :=
  Machine.step_of_error h.safe h.fetched h.frozen_eq_false hd

/-- Settles O4: the low nibble passes the test of R75 exactly when `loose_5_9` is set. -/
theorem lowNibbleOfFamilies5And9 : Obligations.LowNibbleOfFamilies5And9 := by
  unfold Obligations.LowNibbleOfFamilies5And9
  intro s x y n hn
  refine ⟨fun h => ⟨fun hl => h.step_of_error (e := .family5 (formXYN 0x5 x y n)) ?_, fun hl => h.step_of_ok ?_⟩,
    fun h => ⟨fun hl => h.step_of_error (e := .family9 (formXYN 0x9 x y n)) ?_, fun hl => h.step_of_ok ?_⟩⟩
  · rw [hl, decodeWord_formXYN_5, if_neg (by simpa using hn)]
  · rw [hl, decodeWord_formXYN_5, if_pos (Bool.true_or _)]
  · rw [hl, decodeWord_formXYN_9, if_neg (by simpa using hn)]
  · rw [hl, decodeWord_formXYN_9, if_pos (Bool.true_or _)]

/-- Settles O5: each of the three families rejects a low part without a row. -/
theorem undefinedWordsFail : Obligations.UndefinedWordsFail := by
  unfold Obligations.UndefinedWordsFail
  rintro s w h (⟨hf, hn⟩ | ⟨hf, hnn⟩ | ⟨hf, hnn⟩)
  · exact h.step_of_error ((decodeWord_of_family8 hf).trans (decodeFamily8_eq_error (not_mem_lowNibbles8 _ hn)))
  · exact h.step_of_error ((decodeWord_of_familyE hf).trans (decodeFamilyE_eq_error hnn))
  · exact h.step_of_error ((decodeWord_of_familyF hf).trans (decodeFamilyF_eq_error hnn))

/-- Settles O9: the halted check comes first. -/
theorem haltedStateStays : Obligations.HaltedStateStays := by
  unfold Obligations.HaltedStateStays
  exact fun s => step_of_fault

/-- Settles O12: `raise` changes the record alone. -/
theorem decodeFailureChangesNothingElse : Obligations.DecodeFailureChangesNothingElse := by
  unfold Obligations.DecodeFailureChangesNothingElse
  exact fun s w e h hd => h.step_of_error hd

theorem step_of_frozen (hs : s.fault = none) (hf : s.fetch = some w) (hz : s.frozen w = true) :
    step s = .next s.timerDecay := by
  simp [step, State.halted, hs, hf, hz]

theorem isKeyWait_eq_false_iff : isKeyWait w = false ↔ ¬ (wordFamily w = 0xF ∧ wordNN w = 0x0A) := by
  simp [isKeyWait]

/-- Settles O11: a word other than FX0A is frozen while awaiting, before it is decoded. -/
theorem frozenCycleOnlyDecays : Obligations.FrozenCycleOnlyDecays := by
  unfold Obligations.FrozenCycleOnlyDecays
  intro s w hs hf ha hw
  have hz : s.frozen w = true := by rw [State.frozen, ha, isKeyWait_eq_false_iff.mpr hw]; rfl
  exact step_of_frozen hs hf hz

theorem decodeBytes_cons_cons_eq_ok {loose : Bool} {hi lo : Byte} {bs rest : List Byte}
    (h : decodeBytes loose (hi :: lo :: bs) = .ok (i, rest)) : decodeWord loose (wordOfBytes hi lo) = .ok i := by
  rw [decodeBytes] at h
  split at h
  next hd => cases h; exact hd
  next => cases h

/-- The word at the pc of a state that runs i. -/
theorem State.Runs.exists_fetches (h : s.Runs i) : ∃ w, s.Fetches w ∧ decodeWord s.params.loose59 w = .ok i := by
  obtain ⟨hs, hpc, ⟨rest, hd⟩, hz⟩ := h
  have hd := decodeBytes_cons_cons_eq_ok hd
  refine ⟨_, ⟨hs, (s.fetch_eq_some_iff _).mpr ⟨hpc, rfl⟩, hz.imp_right ?_⟩, hd⟩
  rintro ⟨x, rfl⟩
  exact isKeyWait_of_decodeWord_waitkey hd

/-- Settles O8: the word at the pc is fetched, thawed and decodes to i. -/
theorem stepRunsDecodedInstruction : Obligations.StepRunsDecodedInstruction := by
  unfold Obligations.StepRunsDecodedInstruction
  intro s i h
  obtain ⟨w, hw, hd⟩ := h.exists_fetches
  rw [hw.step_of_ok hd]
  cases exec i s with
  | next t => exact congrArg _ t.endCycle_eq
  | fault f => rfl
  | refused r => rfl

/-! ### The words that decode, counted (R79) -/

variable {f : Nat} {p : Word → Bool} {sys : Sys0nnn} {loose : Bool}

theorem countP_range_mul (q : Nat → Bool) (m n : Nat) :
    (List.range (m * n)).countP q = ∑ i ∈ Finset.range m, (List.range n).countP fun j => q (n * i + j) := by
  induction m with
  | zero => simp
  | succ m ih =>
    rw [Nat.succ_mul, List.range_add, List.countP_append, ih, Finset.sum_range_succ, List.countP_map, Nat.mul_comm m n]
    rfl

/-- How many of the 4096 words of family f satisfy p. -/
def familyCount (p : Word → Bool) (f : Nat) : Nat :=
  (List.range 4096).countP fun k => p (BitVec.ofNat 16 (4096 * f + k))

theorem decodedWords_eq_sum (sys : Sys0nnn) (loose : Bool) :
    decodedWords sys loose = ∑ f ∈ Finset.range 16, familyCount (wordDecodes sys loose) f :=
  countP_range_mul _ 16 4096

theorem wordFamily_ofNat {k : Nat} (hk : k < 4096) : wordFamily (BitVec.ofNat 16 (4096 * f + k)) = BitVec.ofNat 4 f := by
  apply BitVec.eq_of_toNat_eq
  simp only [wordFamily, BitVec.extractLsb'_toNat, BitVec.toNat_ofNat, Nat.shiftRight_eq_div_pow]
  omega

theorem extractLsb'_zero_ofNat {m : Nat} (hm : m ≤ 16) (a b : Nat) :
    (BitVec.ofNat 16 (2 ^ m * a + b)).extractLsb' 0 m = BitVec.ofNat m b := by
  apply BitVec.eq_of_toNat_eq
  simp [Nat.mod_mod_of_dvd _ (Nat.pow_dvd_pow 2 hm)]

/-- Counting a family when p reads only the m low bits of its words. -/
theorem familyCount_eq_mul {m : Nat} {q : BitVec m → Bool} (hm : m ≤ 12)
    (h : ∀ w, wordFamily w = BitVec.ofNat 4 f → p w = q (w.extractLsb' 0 m)) :
    familyCount p f = 2 ^ (12 - m) * (List.range (2 ^ m)).countP fun k => q (BitVec.ofNat m k) := by
  have hsize : 2 ^ (12 - m) * 2 ^ m = 4096 := by rw [← pow_add, Nat.sub_add_cancel hm]; rfl
  have hread {k : Nat} (hk : k < 4096) :
      p (BitVec.ofNat 16 (4096 * f + k)) = q (BitVec.ofNat m k) := by
    rw [h _ (wordFamily_ofNat hk), ← hsize, Nat.mul_comm _ (2 ^ m), Nat.mul_assoc, extractLsb'_zero_ofNat (by omega)]
  have hlow (a b : Nat) : BitVec.ofNat m (2 ^ m * a + b) = BitVec.ofNat m b := by
    apply BitVec.eq_of_toNat_eq
    simp
  calc familyCount p f
    _ = (List.range 4096).countP fun k => q (BitVec.ofNat m k) :=
      List.countP_congr fun k hk => by rw [hread (List.mem_range.mp hk)]
    _ = _ := by
      rw [← hsize, countP_range_mul]
      simp [hlow]

/-- Each value of the m low bits occurs once among the numbers below 2^m. -/
theorem countP_range_mem {m : Nat} {rows : List (BitVec m)} (hrows : rows.Nodup) :
    (List.range (2 ^ m)).countP (fun k => decide (BitVec.ofNat m k ∈ rows)) = rows.length := by
  have hinj : Set.InjOn (BitVec.ofNat m) {k | k ∈ List.range (2 ^ m)} := fun a ha b hb h => by
    simpa [Nat.mod_eq_of_lt (List.mem_range.mp ha), Nat.mod_eq_of_lt (List.mem_range.mp hb)] using
      congrArg BitVec.toNat h
  have hall : ((List.range (2 ^ m)).map (BitVec.ofNat m)).Nodup := List.nodup_range.map_on hinj
  have hperm : (((List.range (2 ^ m)).map (BitVec.ofNat m)).filter fun v => decide (v ∈ rows)).Perm rows := by
    refine (List.perm_ext_iff_of_nodup (hall.filter _) hrows).mpr fun v => ?_
    simp only [List.mem_filter, List.mem_map, List.mem_range, decide_eq_true_eq, and_iff_right_iff_imp]
    exact fun _ => ⟨v.toNat, v.isLt, by simp⟩
  rw [← hperm.length_eq, ← List.countP_eq_length_filter, List.countP_map]
  rfl

/-- A family whose words have a row for the low parts listed: each row leaves the bits between them free. -/
theorem familyCount_eq_mul_length {m : Nat} {rows : List (BitVec m)} (hm : m ≤ 12) (hrows : rows.Nodup)
    (h : ∀ w, wordFamily w = BitVec.ofNat 4 f → p w = decide (w.extractLsb' 0 m ∈ rows)) :
    familyCount p f = 2 ^ (12 - m) * rows.length := by
  rw [familyCount_eq_mul (q := fun v => decide (v ∈ rows)) hm h, countP_range_mem hrows]

theorem wordDecodes_of_family0 (h : wordFamily w = 0x0) :
    wordDecodes .decodeFailure false w = decide (wordNNN w ∈ ([0x0E0, 0x0EE] : List Addr)) := by
  have hw : formNNN 0x0 (wordNNN w) = w := by rw [← h, formNNN_fields]
  rw [wordDecodes, ← hw, familyZeroDecodesWholeWord, wordNNN_formNNN]
  by_cases hcls : wordNNN w = 0x0E0
  · simp [hcls]
  · by_cases hret : wordNNN w = 0x0EE
    · simp [hret]
    · rw [if_neg hcls, if_neg hret, decide_eq_false (by simpa using ⟨hcls, hret⟩)]
      rfl

theorem wordDecodes_of_family5 (h : wordFamily w = 0x5) :
    wordDecodes sys false w = decide (wordN w ∈ ([0x0] : List Nibble)) := by
  rw [wordDecodes, decodeWord_of_family5 h]
  by_cases hn : wordN w = 0#4 <;> simp [decodeFamily5, hn]

theorem wordDecodes_of_family9 (h : wordFamily w = 0x9) :
    wordDecodes sys false w = decide (wordN w ∈ ([0x0] : List Nibble)) := by
  rw [wordDecodes, decodeWord_of_family9 h]
  by_cases hn : wordN w = 0#4 <;> simp [decodeFamily9, hn]

theorem wordDecodes_of_family8 (h : wordFamily w = 0x8) :
    wordDecodes sys loose w = decide (wordN w ∈ lowNibbles8) := by
  rw [wordDecodes, decodeWord_of_family8 h]
  by_cases hn : wordN w ∈ lowNibbles8
  · simp only [hn, decide_true]
    simp only [lowNibbles8, List.mem_cons, List.not_mem_nil, or_false] at hn
    rcases hn with e | e | e | e | e | e | e | e | e <;> simp [decodeFamily8, e]
  · simp only [decodeFamily8_eq_error hn, hn, decide_false]

theorem wordDecodes_of_familyE (h : wordFamily w = 0xE) :
    wordDecodes sys loose w = decide (wordNN w ∈ lowBytesE) := by
  rw [wordDecodes, decodeWord_of_familyE h]
  by_cases hnn : wordNN w ∈ lowBytesE
  · simp only [hnn, decide_true]
    simp only [lowBytesE, List.mem_cons, List.not_mem_nil, or_false] at hnn
    rcases hnn with e | e <;> simp [decodeFamilyE, e]
  · simp only [decodeFamilyE_eq_error hnn, hnn, decide_false]

theorem wordDecodes_of_familyF (h : wordFamily w = 0xF) :
    wordDecodes sys loose w = decide (wordNN w ∈ lowBytesF) := by
  rw [wordDecodes, decodeWord_of_familyF h]
  by_cases hnn : wordNN w ∈ lowBytesF
  · simp only [hnn, decide_true]
    simp only [lowBytesF, List.mem_cons, List.not_mem_nil, or_false] at hnn
    rcases hnn with e | e | e | e | e | e | e | e | e <;> simp [decodeFamilyF, e]
  · simp only [decodeFamilyF_eq_error hnn, hnn, decide_false]

/-- The families whose every word has a row (R73). -/
def fullFamilies : List Nibble := [0x1, 0x2, 0x3, 0x4, 0x6, 0x7, 0xA, 0xB, 0xC, 0xD]

theorem wordDecodes_of_fullFamily (h : wordFamily w ∈ fullFamilies) : wordDecodes sys loose w = true := by
  simp only [fullFamilies, List.mem_cons, List.not_mem_nil, or_false] at h
  rcases h with h | h | h | h | h | h | h | h | h | h <;> simp [wordDecodes, decodeWord, h]

theorem familyCount_full (h : BitVec.ofNat 4 f ∈ fullFamilies) : familyCount (wordDecodes sys loose) f = 4096 :=
  familyCount_eq_mul (m := 0) (q := fun _ => true) (Nat.zero_le _) fun _ hw => wordDecodes_of_fullFamily (hw ▸ h)

theorem familyCount_0 : familyCount (wordDecodes .decodeFailure false) 0x0 = 2 :=
  familyCount_eq_mul_length (by decide) (by decide) fun _ => wordDecodes_of_family0

theorem familyCount_5 : familyCount (wordDecodes sys false) 0x5 = 256 :=
  familyCount_eq_mul_length (by decide) (by decide) fun _ => wordDecodes_of_family5

theorem familyCount_8 : familyCount (wordDecodes sys loose) 0x8 = 256 * 9 :=
  familyCount_eq_mul_length (by decide) (by decide) fun _ => wordDecodes_of_family8

theorem familyCount_9 : familyCount (wordDecodes sys false) 0x9 = 256 :=
  familyCount_eq_mul_length (by decide) (by decide) fun _ => wordDecodes_of_family9

theorem familyCount_E : familyCount (wordDecodes sys loose) 0xE = 16 * 2 :=
  familyCount_eq_mul_length (by decide) (by decide) fun _ => wordDecodes_of_familyE

theorem familyCount_F : familyCount (wordDecodes sys loose) 0xF = 16 * 9 :=
  familyCount_eq_mul_length (by decide) (by decide) fun _ => wordDecodes_of_familyF

/-- Settles O6: ten full families, two words of family 0, and the rows of families 5, 8, 9, E and F. -/
theorem defaultDecodeCount : Obligations.DefaultDecodeCount := by
  unfold Obligations.DefaultDecodeCount
  rw [decodedWords_eq_sum]
  simp (disch := decide) only [Finset.sum_range_succ, Finset.sum_range_zero, familyCount_full, familyCount_0, familyCount_5,
    familyCount_8, familyCount_9, familyCount_E, familyCount_F]

end Sys2Proof.Machine
end

section
/-! PROOFS. Control flow (40_control_flow.md): SYS, jumps, CALL and RET, and the four register skips (R100 to R110). -/

namespace Sys2Proof.Machine

variable {s : State}

/-! ### States that differ in the pc, or in the stack and the pc -/

theorem State.frame_setPc (s : State) (pc : Word) : s.Frame (s.setPc pc) {} :=
  s.frame_of_regs s.regs pc [] fun _ _ => rfl

theorem State.frame_stack (s : State) (stack : List Word) (pc : Word) :
    s.Frame { s with stack := stack, pc := pc } { stack := true } :=
  { s.frame_setPc pc with stack := nofun }

/-! ### SYS and the jumps (R101, R102, R109) -/

/-- Settles O15: 0NNN other than the words of CLS and RET is the word of SYS NNN. -/
theorem sysFollowsParameter : Obligations.SysFollowsParameter := by
  unfold Obligations.SysFollowsParameter
  intro s nnn hn
  have hwf : (Instr.sys nnn).wellFormed = true := by simpa [Instr.wellFormed] using hn
  refine ⟨encodeThenDecode _ (.sys nnn) hwf, fun hp => ?_, fun hp => ?_⟩
  · simp only [exec, execSys, hp]; rfl
  · simp only [exec, execSys, hp]; rfl

/-- The target of JP V0 fits in 16 bits: it is at most 0xFFF + 0xFF (R109). -/
theorem toNat_setWidth_add_setWidth (nnn : Addr) (v : Byte) :
    (nnn.setWidth 16 + v.setWidth 16 : Word).toNat = nnn.toNat + v.toNat := by
  have hn := nnn.isLt
  have hv := v.isLt
  rw [BitVec.toNat_add, BitVec.toNat_setWidth_of_le (by decide), BitVec.toNat_setWidth_of_le (by decide)]
  omega

/-- Settles O16: both jumps set the pc alone, and neither target wraps. -/
theorem jumpsSetPc : Obligations.JumpsSetPc := by
  unfold Obligations.JumpsSetPc
  intro s nnn
  exact ⟨encodeThenDecode _ (.jp nnn) rfl, encodeThenDecode _ (.jpV0 nnn) rfl,
    ⟨_, rfl, BitVec.toNat_setWidth_of_le (by decide), s.frame_setPc _⟩,
    ⟨_, rfl, toNat_setWidth_add_setWidth nnn _, s.frame_setPc _⟩⟩

/-! ### CALL and RET (R103, R104, R110) -/

theorem State.stackFull_iff : s.stackFull = true ↔ s.params.stackCapacity = some s.stack.length := by
  unfold State.stackFull
  cases s.params.stackCapacity with
  | none => simp
  | some capacity => exact beq_iff_eq.trans (eq_comm.trans Option.some_inj.symm)

theorem exec_call_of_full (nnn : Addr) (h : s.params.stackCapacity = some s.stack.length) :
    exec (.call nnn) s = .next (s.raise .stackOverflow (formNNN 0x2 nnn).toNat) :=
  if_pos (State.stackFull_iff.mpr h)

theorem exec_call_of_not_full (nnn : Addr) (h : s.params.stackCapacity ≠ some s.stack.length) :
    exec (.call nnn) s = .next { s with stack := s.stack ++ [s.pc], pc := nnn.setWidth 16 } :=
  if_neg (mt State.stackFull_iff.mp h)

theorem exec_ret_of_append {rest : List Word} {a : Word} (h : s.stack = rest ++ [a]) :
    exec .ret s = .next { s with stack := rest, pc := a + 2 } := by
  simp [exec, execRet, State.drop, State.popped, State.setPc, h]

theorem exec_ret_of_nil (h : s.stack = []) : exec .ret s = .next { s with stack := [], pc := 2 } := by
  simp [exec, execRet, State.drop, State.popped, State.setPc, h]

/-- Settles O17: CALL asks first whether the stack is a full bounded one. -/
theorem callPushesItsAddress : Obligations.CallPushesItsAddress := by
  unfold Obligations.CallPushesItsAddress
  exact fun s nnn => ⟨encodeThenDecode _ (.call nnn) rfl,
    fun h => ⟨_, exec_call_of_not_full nnn h, rfl, rfl, s.frame_stack _ _⟩, exec_call_of_full nnn⟩

/-- Settles O18: what RET does to a stack with a last entry, and to the empty one. -/
theorem retPopsAndAddsTwo : Obligations.RetPopsAndAddsTwo := by
  unfold Obligations.RetPopsAndAddsTwo
  exact fun s => ⟨encodeThenDecode _ .ret rfl,
    fun rest a h => ⟨_, exec_ret_of_append h, rfl, rfl, s.frame_stack _ _⟩,
    fun h => ⟨_, exec_ret_of_nil h, rfl, rfl, s.frame_stack _ _⟩⟩

/-- Settles O19: the last entry that RET finds is the address CALL pushed. -/
theorem callThenRetReturns : Obligations.CallThenRetReturns := by
  unfold Obligations.CallThenRetReturns
  intro s u v nnn hs hu hv
  rw [exec_call_of_not_full nnn hs] at hu
  cases hu
  exact ⟨_, exec_ret_of_append hv, rfl, rfl⟩

/-! ### The register skips (R100, R105 to R108) -/

/-- R100, for a test of the model that decides the condition of the rule. -/
theorem State.skip_spec (s : State) {test : Bool} {cond : Prop} [Decidable cond] (h : test = true ↔ cond) :
    (s.skip test).pc = s.skipTarget cond ∧ s.Frame (s.skip test) {} :=
  ⟨if_congr h rfl rfl, s.frame_setPc _⟩

/-- Settles O20: each skip tests its rule's condition; a low nibble other than 0 fails the test of R75. -/
theorem registerSkips : Obligations.RegisterSkips := by
  unfold Obligations.RegisterSkips
  intro s x y nn
  refine ⟨⟨encodeThenDecode _ (.seImm x nn) rfl, _, rfl, s.skip_spec beq_iff_eq⟩,
    ⟨encodeThenDecode _ (.sneImm x nn) rfl, _, rfl, s.skip_spec bne_iff_ne⟩,
    ⟨encodeThenDecode _ (.seReg x y) rfl, _, rfl, s.skip_spec beq_iff_eq⟩,
    ⟨encodeThenDecode _ (.sneReg x y) rfl, _, rfl, s.skip_spec bne_iff_ne⟩, fun n hn hl => ?_⟩
  have hn : ¬ (false || n == 0) = true := by simpa using hn
  rw [hl, decodeWord_formXYN_5, decodeWord_formXYN_9, if_neg hn, if_neg hn]
  exact ⟨rfl, rfl⟩

end Sys2Proof.Machine
end

section
/-! PROOFS. Registers (41_alu.md): loads, arithmetic, logic, shifts and the random draw (R119 to R131). -/

namespace Sys2Proof.Machine

variable (s : State)

/-! ### The two shapes of a register instruction: Vx alone, or a result and a flag (R119) -/

theorem State.setV_advance_spec (x : Nibble) (v : Byte) :
    (s.setV x v).advance.getV x = v ∧ (s.setV x v).advance.pc = s.pc + 2 ∧
      s.Frame (s.setV x v).advance { regs := [x] } :=
  ⟨s.getV_setV_same x v, rfl, s.frame_setV x v⟩

/-- WriteRF of the model's result and flag, for a rule that names them `r'` and `f'`. -/
theorem State.writeRF_advance_spec (x : Nibble) {r f r' f' : Byte} (hr : r = r') (hf : f = f') :
    s.ResultAndFlag (s.writeRF x r f).advance x r' f' ∧ (s.writeRF x r f).advance.pc = s.pc + 2 ∧
      s.Frame (s.writeRF x r f).advance { regs := [x, 15] } := by
  subst hr hf
  refine ⟨s.resultAndFlag_writeRF x r f, ?_, s.frame_writeRF x r f⟩
  rw [State.writeRF_eq]
  rfl

/-! ### The results and the borrow as numbers (R126 to R130) -/

theorem byte_add_eq_ofNat (a b : Byte) : a + b = BitVec.ofNat 8 ((a.toNat + b.toNat) % 256) :=
  BitVec.eq_of_toNat_eq (by simp)

theorem byte_sub_eq_ofInt (a b : Byte) : a - b = BitVec.ofInt 8 ((a.toNat : Int) - b.toNat) := by
  apply BitVec.eq_of_toNat_eq
  rw [BitVec.toNat_sub, BitVec.toNat_ofInt]
  omega

theorem byte_ushiftRight_one_eq_ofNat (v : Byte) : v >>> 1 = BitVec.ofNat 8 (v.toNat / 2) := by
  apply BitVec.eq_of_toNat_eq
  rw [BitVec.toNat_ushiftRight, Nat.shiftRight_one, BitVec.toNat_ofNat, Nat.mod_eq_of_lt (by omega)]

theorem byte_shiftLeft_one_eq_ofNat (v : Byte) : v <<< 1 = BitVec.ofNat 8 (2 * v.toNat % 256) := by
  apply BitVec.eq_of_toNat_eq
  rw [BitVec.toNat_shiftLeft, Nat.shiftLeft_eq, BitVec.toNat_ofNat, Nat.mod_mod, Nat.mul_comm]

/-- A borrow clears the flag (R127, R129). -/
theorem subFlag_eq (a b : Byte) : subFlag a b = if b.toNat > a.toNat then 0 else 1 := by
  rw [subFlag, ← ite_not]
  exact if_congr Nat.not_le rfl rfl

/-! ### Arithmetic and shifts with a flag (R126 to R130) -/

/-- Settles O23: the sum and the carry go through WriteRF. -/
theorem addSetsCarry : Obligations.AddSetsCarry := by
  unfold Obligations.AddSetsCarry
  exact fun s x y => ⟨encodeThenDecode _ (.addReg x y) rfl, _, rfl,
    s.writeRF_advance_spec x (byte_add_eq_ofNat _ _) rfl⟩

/-- Settles O24: Vx - Vy, and the flag is cleared by a borrow. -/
theorem subSetsInvertedBorrow : Obligations.SubSetsInvertedBorrow := by
  unfold Obligations.SubSetsInvertedBorrow
  exact fun s x y => ⟨encodeThenDecode _ (.sub x y) rfl, _, rfl,
    s.writeRF_advance_spec x (byte_sub_eq_ofInt _ _) (subFlag_eq _ _)⟩

/-- Settles O25: SUB's result and flag with the operands exchanged. -/
theorem subnSetsInvertedBorrow : Obligations.SubnSetsInvertedBorrow := by
  unfold Obligations.SubnSetsInvertedBorrow
  exact fun s x y => ⟨encodeThenDecode _ (.subn x y) rfl, _, rfl,
    s.writeRF_advance_spec x (byte_sub_eq_ofInt _ _) (subFlag_eq _ _)⟩

/-- Settles O26: the half, and the bit shifted out as a number. -/
theorem shrKeepsLowBit : Obligations.ShrKeepsLowBit := by
  unfold Obligations.ShrKeepsLowBit
  exact fun s x y => ⟨encodeThenDecode _ (.shr x y) rfl, _, rfl,
    s.writeRF_advance_spec x (byte_ushiftRight_one_eq_ofNat _) (shrFlag_eq _)⟩

/-- Settles O27: the double, and the bit shifted out in its place. -/
theorem shlKeepsHighBitInPlace : Obligations.ShlKeepsHighBitInPlace := by
  unfold Obligations.ShlKeepsHighBitInPlace
  exact fun s x y => ⟨encodeThenDecode _ (.shl x y) rfl, _, rfl,
    s.writeRF_advance_spec x (byte_shiftLeft_one_eq_ofNat _) (shlFlag_eq _)⟩

/-! ### The random draw (R131) -/

/-- RND is a register write after one draw. -/
theorem State.frame_drawn_setV (x : Nibble) (v : Byte) :
    s.Frame (s.drawn.setV x v).advance { regs := [x], draws := true } :=
  { s.drawn.frame_setV x v with draws := nofun }

theorem touches_draws {s : State} {i : Instr} (h : (touches s i).draws = true) : ∃ x nn, i = .rnd x nn := by
  cases i with
  | rnd x nn => exact ⟨x, nn, rfl⟩
  | _ => cases h

theorem exec_draws_of_ne_rnd {s t : State} {i : Instr} (hi : ∀ x nn, i ≠ .rnd x nn) (h : exec i s = .next t) :
    t.draws = s.draws := by
  rcases exec_frame_or_raise h with f | ⟨c, n, rfl⟩
  · refine f.draws (Bool.eq_false_iff.mpr fun hd => ?_)
    obtain ⟨x, nn, rfl⟩ := touches_draws hd
    exact hi x nn rfl
  · rfl

/-- Settles O28: RND takes the draw of the counter before it, and no other instruction touches the counter. -/
theorem rndMasksOneDraw : Obligations.RndMasksOneDraw := by
  unfold Obligations.RndMasksOneDraw
  exact ⟨fun s x nn => ⟨encodeThenDecode _ (.rnd x nn) rfl, _, rfl, s.drawn.getV_setV_same x _, rfl, rfl,
    s.frame_drawn_setV x _⟩, fun _ _ _ => exec_draws_of_ne_rnd⟩

/-! ### Loads, the immediate addition and logic, without a flag (R120 to R125) -/

/-- Settles O21: the sum of ADD immediate is taken modulo 256, and VF is Vx or is left alone. -/
theorem loadsAndImmediateAdd : Obligations.LoadsAndImmediateAdd := by
  unfold Obligations.LoadsAndImmediateAdd
  intro s x y nn
  obtain ⟨hsum, hpc, hframe⟩ := s.setV_advance_spec x (s.getV x + nn)
  exact ⟨⟨encodeThenDecode _ (.mvi x nn) rfl, _, rfl, s.setV_advance_spec x _⟩,
    ⟨encodeThenDecode _ (.addImm x nn) rfl, _, rfl,
      (congrArg BitVec.toNat hsum).trans (BitVec.toNat_add _ _), hpc, hframe⟩,
    ⟨encodeThenDecode _ (.mov x y) rfl, _, rfl, s.setV_advance_spec x _⟩⟩

/-- Settles O22: each is a write of Vx alone. -/
theorem logicWritesNoFlag : Obligations.LogicWritesNoFlag := by
  unfold Obligations.LogicWritesNoFlag
  exact fun s x y => ⟨⟨encodeThenDecode _ (.or x y) rfl, _, rfl, s.setV_advance_spec x _⟩,
    ⟨encodeThenDecode _ (.and x y) rfl, _, rfl, s.setV_advance_spec x _⟩,
    ⟨encodeThenDecode _ (.xor x y) rfl, _, rfl, s.setV_advance_spec x _⟩⟩

end Sys2Proof.Machine
end

section
/-! PROOFS. The index register, BCD and the block moves (42_index_memory.md): R139 to R146. -/

namespace Sys2Proof.Machine

variable (s : State)

/-! ### BCD, STM and LDM, in range and out of it (R139) -/

theorem State.accessing_of_not_inRange {n : Nat} (done : State) (h : ¬ s.InRange n) :
    s.accessing n done = .next (s.raise .memoryOutOfRange (max s.index.toNat memSize)) := by
  obtain ⟨hn, hend⟩ := not_or.mp h
  exact s.accessing_bad n done hn (Nat.not_le.mp hend)

theorem exec_bcd_of_inRange (x : Nibble) (h : s.InRange 3) :
    exec (.bcd x) s = .next (s.writeBytes (s.ea 0) (bcdDigits (s.getV x))).advance :=
  s.accessing_ok 3 _ h

theorem exec_stm_of_inRange (x : Nibble) (h : s.InRange (x.toNat + 1)) :
    exec (.stm x) s = .next (s.writeBytes (s.ea 0) (s.regsUpTo x)).advance :=
  s.accessing_ok (x.toNat + 1) _ h

theorem exec_ldm_of_inRange (x : Nibble) (h : s.InRange (x.toNat + 1)) :
    exec (.ldm x) s = .next (s.loadUpTo x).advance :=
  s.accessing_ok (x.toNat + 1) _ h

theorem State.writeBytes_advance_pc (a : Nat) (vs : List Byte) : (s.writeBytes a vs).advance.pc = s.pc + 2 := by
  rw [State.advance_pc, State.writeBytes_pc]

theorem State.loadUpTo_advance_pc (x : Nibble) : (s.loadUpTo x).advance.pc = s.pc + 2 := by
  rw [State.advance_pc, State.loadUpTo_pc]

/-- STM changes the x + 1 bytes that it stores (R144). -/
theorem State.frame_writeBytes_regsUpTo (x : Nibble) :
    s.Frame (s.writeBytes (s.ea 0) (s.regsUpTo x)).advance { bytes := (s.ea 0, x.toNat + 1) } :=
  s.length_regsUpTo x ▸ s.frame_writeBytes (s.ea 0) (s.regsUpTo x)

/-- R144 by register: STM stores Vz at I + z. -/
theorem exec_stm_readByte_getV {s t : State} {x z : Nibble} (hs : s.memory.wf s.params.font)
    (hr : s.InRange (x.toNat + 1)) (h : exec (.stm x) s = .next t) (hz : z ≤ x) :
    t.readByte (s.index.toNat + z.toNat) = s.getV z := by
  rw [exec_stm_readByte hs hr h hz, BitVec.ofNat_toNat, BitVec.setWidth_eq]

/-- Settles O31: the three digits lie where BCD's block store puts them. -/
theorem bcdStoresDigits : Obligations.BcdStoresDigits := by
  unfold Obligations.BcdStoresDigits
  refine fun s x hs => ⟨encodeThenDecode _ (.bcd x) rfl, fun hr => ?_, fun hr => s.accessing_of_not_inRange _ hr⟩
  have hx := exec_bcd_of_inRange s x hr
  obtain ⟨hundreds, tens, ones⟩ := exec_bcd_readByte_toNat hs hr hx
  exact ⟨_, hx, hundreds, tens, ones, s.writeBytes_advance_pc _ _, s.frame_writeBytes _ (bcdDigits (s.getV x))⟩

/-- Settles O32: STM's block store puts each register at its own place. -/
theorem stmStoresRegisters : Obligations.StmStoresRegisters := by
  unfold Obligations.StmStoresRegisters
  refine fun s x hs => ⟨encodeThenDecode _ (.stm x) rfl, fun hr => ?_, fun hr => s.accessing_of_not_inRange _ hr⟩
  have hx := exec_stm_of_inRange s x hr
  exact ⟨_, hx, fun _ => exec_stm_readByte_getV hs hr hx, s.writeBytes_advance_pc _ _, s.frame_writeBytes_regsUpTo x⟩

/-- R145 by register, I as a number. -/
theorem State.loadUpTo_advance_getV (x z : Nibble) : (s.loadUpTo x).advance.getV z =
    if z ≤ x then s.readByte (s.index.toNat + z.toNat) else s.getV z := by
  rw [State.advance_getV, State.getV_loadUpTo, State.ea]

/-- Settles O33: LDM is the block load of V0 to Vx. -/
theorem ldmLoadsRegisters : Obligations.LdmLoadsRegisters := by
  unfold Obligations.LdmLoadsRegisters
  exact fun s x => ⟨encodeThenDecode _ (.ldm x) rfl,
    fun hr => ⟨_, exec_ldm_of_inRange s x hr, s.loadUpTo_advance_getV x, s.loadUpTo_advance_pc x, s.frame_loadUpTo x⟩,
    fun hr => s.accessing_of_not_inRange _ hr⟩

/-- Settles O34: the byte that LDM loads into Vz is the one STM stored from it. -/
theorem stmThenLdmReproduces : Obligations.StmThenLdmReproduces := by
  unfold Obligations.StmThenLdmReproduces
  intro s u v x hs hr hu hI hbytes
  have hrv : v.InRange (x.toNat + 1) := by rwa [State.InRange, hI]
  refine ⟨_, exec_ldm_of_inRange v x hrv, fun z hz => ?_⟩
  calc (v.loadUpTo x).advance.getV z
    _ = v.readByte (v.index.toNat + z.toNat) := (v.loadUpTo_advance_getV x z).trans (if_pos hz)
    _ = u.readByte (s.index.toNat + z.toNat) := by rw [hI, hbytes _ hz]
    _ = s.getV z := exec_stm_readByte_getV hs hr hu hz

/-! ### The index register (R140 to R142) -/

theorem State.frame_setI (v : Word) : s.Frame (s.setI v).advance { index := true } :=
  { s.frame_setPc (s.pc + 2) with index := nofun }

theorem toNat_add_setWidth_byte (a : Word) (v : Byte) :
    (a + v.setWidth 16).toNat = (a.toNat + v.toNat) % 65536 := by
  rw [BitVec.toNat_add, BitVec.toNat_setWidth_of_le (by decide)]

/-- Settles O29: both write I alone, and the sum is taken modulo 65536. -/
theorem indexLoadAndAdd : Obligations.IndexLoadAndAdd := by
  unfold Obligations.IndexLoadAndAdd
  exact fun s nnn x => ⟨⟨encodeThenDecode _ (.mviI nnn) rfl, _, rfl, rfl, rfl, s.frame_setI _⟩,
    ⟨encodeThenDecode _ (.addI x) rfl, _, rfl, toNat_add_setWidth_byte _ _, rfl, s.frame_setI _⟩⟩

/-- Settles O30: FONT writes the product of R142 to I alone. -/
theorem fontIsFiveTimesVx : Obligations.FontIsFiveTimesVx := by
  unfold Obligations.FontIsFiveTimesVx
  exact fun s x => ⟨encodeThenDecode _ (.font x) rfl, _, rfl, fontProduct_toNat _ _, rfl, s.frame_setI _⟩

end Sys2Proof.Machine
end

section
/-! PROOFS. The display (43_display.md): the screen clear and the sprite draw (R160 to R163). -/

namespace Sys2Proof.Machine

/-! ### What an instruction that sets the screen leaves alone -/

theorem State.frame_setScreen (s : State) (scr : BitVec 2048) :
    s.Frame (s.setScreen scr).advance { display := true } :=
  { s.frame_setPc (s.pc + 2) with screen := nofun, redraw := nofun }

theorem State.frame_setScreen_setV (s : State) (scr : BitVec 2048) (x : Nibble) (v : Byte) :
    s.Frame ((s.setScreen scr).setV x v).advance { regs := [x], display := true } :=
  { (s.setScreen scr).frame_setV x v with screen := nofun, redraw := nofun }

/-- Settles O36: CLS sets the empty screen. -/
theorem clsClearsScreen : Obligations.ClsClearsScreen := by
  unfold Obligations.ClsClearsScreen
  exact fun s => ⟨encodeThenDecode _ .cls rfl, _, rfl, fun _ _ => BitVec.getLsbD_zero, rfl, rfl, s.frame_setScreen 0⟩

/-! ### The pixels of a sprite (R162, R163) -/

/-- Whatever the origin, a screenful of 32 rows of 64 columns covers no pixel twice. -/
theorem pixelAddr_inj (vx vy : Byte) {r r' c c' : Nat} (hr : r < 32) (hr' : r' < 32) (hc : c < 64) (hc' : c' < 64) :
    pixelAddr vx vy r c = pixelAddr vx vy r' c' ↔ r = r' ∧ c = c' := by
  unfold pixelAddr
  omega

/-- Settles O37: a sprite is smaller than the screen. -/
theorem spriteBitsDoNotOverlap : Obligations.SpriteBitsDoNotOverlap := by
  unfold Obligations.SpriteBitsDoNotOverlap
  exact fun vx vy => ⟨fun _ _ => rfl, fun r r' c c' hr hr' hc hc' =>
    (pixelAddr_inj vx vy (by omega) (by omega) (by omega) (by omega)).mp⟩

section
variable (vx vy : Byte) (sprite : Nat → Byte) (d : Drawing) {n : Nat} (hn : n ≤ 32)
include hn

/-- The bits of one row fall on different pixels, and so do those of two rows. -/
theorem spritePixels_nodup : (spritePixels vx vy sprite n).Nodup := by
  have col_lt {row c : Nat} (hc : c ∈ (List.range 8).filter (spriteBit (sprite row))) : c < 8 :=
    List.mem_range.mp (List.mem_of_mem_filter hc)
  have inj {r r' c c' : Nat} (hr : r < n) (hr' : r' < n) (hc : c < 8) (hc' : c' < 8) :=
    pixelAddr_inj vx vy (show r < 32 by omega) (show r' < 32 by omega) (show c < 64 by omega) (show c' < 64 by omega)
  refine List.nodup_flatMap.mpr ⟨fun row hrow => ?_, List.nodup_range.imp_of_mem fun hr hr' hne p hp hp' => ?_⟩
  · rw [List.mem_range] at hrow
    exact (List.nodup_range.filter _).map_on fun c hc c' hc' e => ((inj hrow hrow (col_lt hc) (col_lt hc')).mp e).2
  · rw [List.mem_range] at hr hr'
    obtain ⟨c, hc, e⟩ := List.mem_map.mp hp
    obtain ⟨c', hc', e'⟩ := List.mem_map.mp hp'
    exact hne ((inj hr hr' (col_lt hc) (col_lt hc')).mp (e.trans e'.symm)).1

/-- Drawing a sprite is one pass over pixels no two of which are the same. -/
theorem Drawing.rows_spec :
    (∀ p < 2048, (Drawing.rows vx vy sprite n d).screen.getLsbD p =
      (d.screen.getLsbD p ^^ decide (p ∈ spritePixels vx vy sprite n))) ∧
    (Drawing.rows vx vy sprite n d).hit = (d.hit || (spritePixels vx vy sprite n).any d.screen.getLsbD) := by
  rw [Drawing.rows_eq_foldl]
  refine Drawing.foldl_flip _ (spritePixels_nodup vx vy sprite hn) (fun p hp => ?_) d
  obtain ⟨row, _, col, _, _, rfl⟩ := (mem_spritePixels vx vy sprite n p).mp hp
  exact pixelAddr_lt vx vy row col

end

/-! ### The draw (R161) -/

variable (s : State) (x y n : Nibble)

/-- A pixel is inverted iff a set sprite bit falls on it. -/
theorem State.drawing_screen_ne_iff {p : Nat} (hp : p < 2048) :
    (s.drawing x y n).screen.getLsbD p ≠ s.screen.getLsbD p ↔
      ∃ row < n.toNat, ∃ col < 8, spriteBit (s.readByte (s.ea row)) col = true ∧
        pixelAddr (s.getV x) (s.getV y) row col = p := by
  have hn : n.toNat ≤ 32 := by omega
  obtain ⟨hscreen, -⟩ := Drawing.rows_spec (s.getV x) (s.getV y) (fun row => s.readByte (s.ea row)) ⟨s.screen, false⟩ hn
  rw [State.drawing, hscreen p hp, ← mem_spritePixels]
  cases s.screen.getLsbD p <;> simp

/-- There is a hit iff a set sprite bit falls on a set pixel. -/
theorem State.drawing_hit_iff :
    (s.drawing x y n).hit = true ↔
      ∃ row < n.toNat, ∃ col < 8, spriteBit (s.readByte (s.ea row)) col = true ∧
        s.screen.getLsbD (pixelAddr (s.getV x) (s.getV y) row col) = true := by
  have hn : n.toNat ≤ 32 := by omega
  obtain ⟨-, hhit⟩ := Drawing.rows_spec (s.getV x) (s.getV y) (fun row => s.readByte (s.ea row)) ⟨s.screen, false⟩ hn
  rw [State.drawing, hhit, Bool.false_or, List.any_eq_true]
  simp only [mem_spritePixels]
  constructor
  · rintro ⟨_, ⟨row, hrow, col, hcol, hbit, rfl⟩, hset⟩
    exact ⟨row, hrow, col, hcol, hbit, hset⟩
  · rintro ⟨row, hrow, col, hcol, hbit, hset⟩
    exact ⟨_, ⟨row, hrow, col, hcol, hbit, rfl⟩, hset⟩

theorem hitFlag_eq_one_iff {hit : Bool} : hitFlag hit = 1 ↔ hit = true := by
  cases hit <;> decide

theorem hitFlag_eq_one_or_zero (hit : Bool) : hitFlag hit = 1 ∨ hitFlag hit = 0 := by
  cases hit <;> decide

theorem exec_drw_of_inRange (h : s.InRange n.toNat) : exec (.drw x y n) s =
    .next ((s.setScreen (s.drawing x y n).screen).setV vf (hitFlag (s.drawing x y n).hit)).advance :=
  s.accessing_ok n.toNat _ h

/-- Settles O38: DRW sets the screen that the draw leaves, and VF to its hit. -/
theorem drwInvertsSpritePixels : Obligations.DrwInvertsSpritePixels := by
  unfold Obligations.DrwInvertsSpritePixels
  refine fun s x y n => ⟨encodeThenDecode _ (.drw x y n) rfl,
    fun hr => ⟨_, exec_drw_of_inRange s x y n hr, fun p hp => s.drawing_screen_ne_iff x y n hp, ?_, ?_, rfl, rfl,
      s.frame_setScreen_setV _ vf _⟩,
    fun hr => s.accessing_of_not_inRange _ hr⟩
  all_goals rw [State.advance_getV, show (15 : Nibble) = vf from rfl, State.getV_setV_same]
  · exact hitFlag_eq_one_or_zero _
  · exact hitFlag_eq_one_iff.trans (s.drawing_hit_iff x y n)

end Sys2Proof.Machine
end

section
/-! PROOFS. Keypad and timers (44_keypad_timers.md): the key skips, the key-wait, the timer read and the timer writes
(R170 to R179). -/

namespace Sys2Proof

variable {ties : RoundTies} {p : Params} {t : Rat}

/-! ### RoundDT of a timer in range (R172) -/

theorem nearestInt_of_nonneg (ht : 0 ≤ t) : nearestInt ties t = divNearest ties t.num.natAbs t.den := by
  unfold nearestInt
  rcases ht.eq_or_lt with rfl | ht
  · simp [divNearest_of_lt_half (show 2 * 0 < 1 by decide)]
  · rw [Int.sign_eq_one_of_pos (Rat.num_pos.mpr ht), one_mul]

/-- A negative timer in range is nearest to 0: its nearest integer has its sign, and is not below 0. -/
theorem nearestInt_of_neg (hlo : -(1 / 2) < t) (ht : t < 0) : nearestInt ties t = 0 := by
  obtain ⟨hnonneg, -⟩ := nearestInt_bounds ties hlo (by linarith)
  have hsign : nearestInt ties t = -(divNearest ties t.num.natAbs t.den : Int) := by
    rw [nearestInt, Int.sign_eq_neg_one_of_neg (Rat.num_neg.mpr ht), neg_one_mul]
  omega

/-- `divNearest_spec` divided by the denominator. -/
theorem nearestInt_spec {r : Nat} (ht : 0 ≤ t) (hr : nearestInt ties t = r) :
    ((r : Rat) - 1 / 2 ≤ t ∧ t ≤ r + 1 / 2) ∧ (t = r + 1 / 2 → ties = .toEven ∧ r % 2 = 0) ∧
      (t = r - 1 / 2 → ties = .awayFromZero ∨ r % 2 = 0) := by
  have hd : (0 : Rat) < t.den := Nat.cast_pos.mpr t.den_pos
  have hn : (t.num.natAbs : Rat) = t * t.den := by
    rw [← div_eq_iff hd.ne', ← abs_eq_natAbs_div, abs_of_nonneg ht]
  obtain ⟨hle, hge, hup, hdown⟩ := divNearest_spec (ties := ties) (n := t.num.natAbs) t.den_pos
  rw [← Nat.cast_injective (hr.symm.trans (nearestInt_of_nonneg ht))] at hle hge hup hdown
  generalize t.num.natAbs = n at *
  refine ⟨⟨le_of_mul_le_mul_right ?_ hd, le_of_mul_le_mul_right ?_ hd⟩, fun h => hup ?_, fun h => hdown ?_⟩
  · qify [hn] at hge
    linarith
  · qify [hn] at hle
    linarith
  all_goals
    qify [hn]
    rw [h]
    ring

theorem nearestInt_eq_roundDT_toNat (hm : 0 ≤ nearestInt p.dtRoundTies t ∧ nearestInt p.dtRoundTies t ≤ 255) :
    nearestInt p.dtRoundTies t = (p.roundDT t).toNat := by
  rw [Params.roundDT, if_pos hm, BitVec.toNat_ofNat]
  omega

end Sys2Proof

namespace Sys2Proof.Machine

/-- Settles O42: a timer in range is above -1/2 and at most 255, so RoundDT is its nearest integer. -/
theorem roundDTIsNearest : Obligations.RoundDTIsNearest := by
  unfold Obligations.RoundDTIsNearest
  rintro p t ⟨-, -, -, hdelta⟩ ⟨-, hlo, hhi⟩
  have hhalf : -(1 / 2) < t := by
    rw [Rat.mkRat_eq_div] at hdelta
    push_cast at hdelta
    linarith
  have hr := nearestInt_eq_roundDT_toNat (nearestInt_bounds p.dtRoundTies hhalf hhi)
  rcases lt_or_ge t 0 with ht | ht
  · rw [nearestInt_of_neg hhalf ht] at hr
    have hzero : p.roundDT t = 0 := BitVec.eq_of_toNat_eq (Nat.cast_injective hr.symm)
    simp [hzero, ht.not_ge]
  · obtain ⟨hnear, hup, hdown⟩ := nearestInt_spec ht hr
    exact ⟨fun h => absurd h ht.not_gt, fun _ => hnear, fun _ => hup, fun _ => hdown⟩

variable {s : State}

/-! ### What an instruction that sets a timer or the awaiting flag leaves alone -/

theorem State.frame_setDT (s : State) (d : Rat) : s.Frame (s.setDT d).advance { delayTimer := true } :=
  { s.frame_setPc (s.pc + 2) with delayTimer := nofun }

theorem State.frame_setST (s : State) (d : Rat) : s.Frame (s.setST d).advance { soundTimer := true } :=
  { s.frame_setPc (s.pc + 2) with soundTimer := nofun }

theorem State.frame_setAwaiting (s : State) (b : Bool) : s.Frame (s.setAwaiting b) { awaiting := true } :=
  { s.frame_setPc s.pc with awaiting := nofun }

theorem State.frame_setV_setAwaiting (s : State) (x : Nibble) (v : Byte) (b : Bool) :
    s.Frame ((s.setV x v).setAwaiting b).advance { regs := [x], awaiting := true } :=
  { s.frame_setV x v with awaiting := nofun }

/-! ### The key skips and the key-wait (R170, R171, R179) -/

/-- Settles O39: the test of both skips is `keyHeld`, on the whole byte. -/
theorem keySkips : Obligations.KeySkips := by
  unfold Obligations.KeySkips
  exact fun s x => ⟨⟨encodeThenDecode _ (.skp x) rfl, _, rfl, s.skip_spec (s.keyHeld_iff _)⟩,
    ⟨encodeThenDecode _ (.sknp x) rfl, _, rfl,
      s.skip_spec (Bool.not_eq_iff.trans (not_congr (s.keyHeld_iff _)))⟩⟩

theorem exec_waitkey_of_nil (x : Nibble) (h : s.keys = []) : exec (.waitkey x) s = .next (s.setAwaiting true) := by
  simp [exec, execWaitkey, State.lastKey, h]

theorem exec_waitkey_of_append (x : Nibble) {older : List Nibble} {k : Nibble} (h : s.keys = older ++ [k]) :
    exec (.waitkey x) s = .next ((s.setV x (k.setWidth 8)).setAwaiting false).advance := by
  simp [exec, execWaitkey, State.lastKey, h]

/-- Settles O40: what WAITKEY does with no key held, and with a last key. -/
theorem waitkeyTakesLastKey : Obligations.WaitkeyTakesLastKey := by
  unfold Obligations.WaitkeyTakesLastKey
  refine fun s x => ⟨encodeThenDecode _ (.waitkey x) rfl,
    fun h => ⟨_, exec_waitkey_of_nil x h, rfl, rfl, s.frame_setAwaiting true⟩,
    fun older k h => ⟨_, exec_waitkey_of_append x h, ?_, rfl, rfl, s.frame_setV_setAwaiting x _ false⟩⟩
  rw [State.advance_getV, State.setAwaiting_getV, State.getV_setV_same, BitVec.toNat_setWidth_of_le (by decide)]

/-! ### The timer moves (R176 to R178) -/

/-- Settles O41: the read writes Vx alone. -/
theorem delayTimerReadCompletes : Obligations.DelayTimerReadCompletes := by
  unfold Obligations.DelayTimerReadCompletes
  exact fun s x => ⟨encodeThenDecode _ (.movVxDt x) rfl, _, rfl, s.setV_advance_spec x _⟩

/-- Settles O43: a byte is a number of either format. -/
theorem timerWritesAreExact : Obligations.TimerWritesAreExact := by
  unfold Obligations.TimerWritesAreExact
  intro s x
  have hrep : s.params.timerFormat.Representable ((s.getV x).toNat : Rat) :=
    s.params.timerFormat.natCast_representable (Nat.le_of_lt_succ (s.getV x).isLt)
  exact ⟨⟨encodeThenDecode _ (.movDtVx x) rfl, _, rfl, rfl, hrep, rfl, s.frame_setDT _⟩,
    ⟨encodeThenDecode _ (.movStVx x) rfl, _, rfl, rfl, hrep, rfl, s.frame_setST _⟩⟩

end Sys2Proof.Machine
end

section
/-! PROOFS. Faults and progress (R200 to R204), the arithmetic of the timers (R210 to R212), and the host's side of the
interface: key events, load and the scheduler (R215, R220 to R226, R241). -/

namespace Sys2Proof.Machine

variable {s t : State} {i : Instr}

/-! ### Every fault and its cause (R201, R202) -/

/-- The three faults that an instruction raises (R56, R101, R103), each with what brings it about. -/
theorem exec_fault (h : exec i s = .next t) :
    t.fault = s.fault ∨
    (¬ s.InRange (bytesAccessed i) ∧ t = s.raise .memoryOutOfRange (max s.index.toNat memSize)) ∨
    (∃ nnn, i = .sys nnn ∧ s.params.sys0nnn = .decodeFailure ∧ t = s.raise .decodeFailure (encodeWord i).toNat) ∨
    (∃ nnn, i = .call nnn ∧ s.params.stackCapacity = some s.stack.length ∧
      t = s.raise .stackOverflow (encodeWord i).toNat) := by
  rcases exec_inRange_or_raise h with hr | bad
  · cases i with
    | sys nnn =>
      simp only [exec, execSys] at h
      split at h <;> rename_i hp <;> cases h
      · exact .inr (.inr (.inl ⟨nnn, rfl, hp, rfl⟩))
      · exact .inl rfl
    | call nnn =>
      simp only [exec, execCall] at h
      split at h <;> rename_i hfull <;> cases h
      · exact .inr (.inr (.inr ⟨nnn, rfl, State.stackFull_iff.mp hfull, rfl⟩))
      · exact .inl rfl
    | waitkey x =>
      simp only [exec, execWaitkey] at h
      split at h <;> cases h <;> exact .inl rfl
    | drw x y n | stm x | bcd x | ldm x =>
      cases (State.accessing_ok s _ _ hr).symm.trans h
      simp
    | addReg x y | sub x y | shr x y | subn x y | shl x y =>
      cases h
      rw [State.writeRF_eq]
      exact .inl rfl
    | _ =>
      cases h
      exact .inl rfl
  · exact .inr (.inl bad)

/-- A cycle that ends with a fault ends without the decay (R202). -/
theorem State.endCycle_of_fault (h : s.endCycle.fault ≠ none) : s.endCycle = s := by
  rw [State.endCycle_eq] at h ⊢
  split at h
  · exact absurd ‹_› h
  · exact if_neg ‹_›

/-- The word of a decoded SYS or CALL is the one its instruction encodes to: neither has an ignored low nibble. -/
theorem encodeWord_eq_of_decodeWord {loose : Bool} {w : Word} {nnn : Addr} (hd : decodeWord loose w = .ok i)
    (hi : i = .sys nnn ∨ i = .call nnn) : encodeWord i = w := by
  rcases decodeWord_hasWord hd with ⟨hw, -⟩ | ⟨-, rfl | rfl⟩
  · exact hw
  · simp at hi
  · simp at hi

/-- Everything that a faulting step of a running machine can have raised, and what brought it about. -/
theorem step_fault (hs : s.fault = none) (h : step s = .next t) (ht : t.fault ≠ none) :
    (s.fetch = none ∧ t = s.raise .fetchOutOfRange s.pc.toNat) ∨
    ∃ w, s.fetch = some w ∧
      ((wordDecodes s.params.sys0nnn s.params.loose59 w = false ∧ t = s.raise .decodeFailure w.toNat) ∨
      (∃ i, decodeWord s.params.loose59 w = .ok i ∧ ¬ s.InRange (bytesAccessed i) ∧
        t = s.raise .memoryOutOfRange (max s.index.toNat memSize)) ∨
      (∃ nnn, decodeWord s.params.loose59 w = .ok (.call nnn) ∧ s.params.stackCapacity = some s.stack.length ∧
        t = s.raise .stackOverflow w.toNat)) := by
  rcases step_cases h with ⟨hf, -⟩ | ⟨-, hf, rfl⟩ | ⟨w, -, -, -, rfl⟩ | ⟨w, e, -, hf, -, hd, rfl⟩ |
    ⟨w, i, u, -, hf, -, hd, hx, rfl⟩
  · exact absurd hs hf
  · exact .inl ⟨hf, rfl⟩
  · exact absurd hs ht
  · exact .inr ⟨w, hf, .inl ⟨by simp [wordDecodes, hd], rfl⟩⟩
  · have hend := State.endCycle_of_fault ht
    rw [hend] at ht ⊢
    refine .inr ⟨w, hf, ?_⟩
    rcases exec_fault hx with hu | ⟨hr, rfl⟩ | ⟨nnn, rfl, hp, rfl⟩ | ⟨nnn, rfl, hfull, rfl⟩
    · exact absurd (hu.trans hs) ht
    · exact .inr (.inl ⟨i, hd, hr, rfl⟩)
    · rw [encodeWord_eq_of_decodeWord hd (.inl rfl)]
      exact .inl ⟨by simp [wordDecodes, hd, hp], rfl⟩
    · rw [encodeWord_eq_of_decodeWord hd (.inr rfl)]
      exact .inr (.inr ⟨nnn, hd, hfull, rfl⟩)

/-- Settles O14: each cause raises its fault, which changes the record alone. -/
theorem faultsArePreciseAndCaused : Obligations.FaultsArePreciseAndCaused := by
  unfold Obligations.FaultsArePreciseAndCaused
  intro s t r hs h hr
  rcases step_fault hs h (by simp [hr]) with
    ⟨hf, rfl⟩ | ⟨w, hf, ⟨hd, rfl⟩ | ⟨i, hd, hn, rfl⟩ | ⟨nnn, hd, hfull, rfl⟩⟩ <;> cases hr
  · have hpc : 4096 ≤ s.pc.toNat + 1 := s.fetch_eq_none_iff.mp hf
    exact ⟨rfl, rfl, by omega, rfl⟩
  · exact ⟨rfl, rfl, w, hf, hd, rfl⟩
  · exact ⟨rfl, rfl, i, State.current_of_decoded hf hd, hn, rfl⟩
  · exact ⟨rfl, rfl, w, nnn, hf, hd, hfull, rfl⟩

/-! ### Progress (R80, R200) -/

/-- Settles O13: each case of the cycle (R80) answers a next state, and so does every instruction. -/
theorem everyStateHasNext : Obligations.EveryStateHasNext := by
  unfold Obligations.EveryStateHasNext
  intro s
  by_cases hs : s.fault = none
  · cases hf : s.fetch with
    | none => exact ⟨_, step_of_fetch_none hs hf⟩
    | some w =>
      cases hz : s.frozen w with
      | true => exact ⟨_, step_of_frozen hs hf hz⟩
      | false =>
        cases hd : decodeWord s.params.loose59 w with
        | error e => exact ⟨_, step_of_error hs hf hz hd⟩
        | ok i =>
          obtain ⟨t, ht, -⟩ := exec_cases i s
          exact ⟨t.endCycle, (step_of_decoded hs hf hz hd).trans (congrArg endOutcome ht)⟩
  · exact ⟨s, step_of_fault hs⟩

end Sys2Proof.Machine

namespace Sys2Proof

/-! ### The nearest number of a format (R210, R211) -/

/-- Between two different multiples of u: if M * u is at most a half of u away from x, then no multiple is nearer, and one
that is as near is a neighbour at a tie. -/
theorem nearest_multiple {x u : ℚ} {M j : ℤ} (hu : 0 ≤ u) (hM : 2 * |M * u - x| ≤ u) (hj : j ≠ M) :
    |M * u - x| ≤ |j * u - x| ∧ (|j * u - x| = |M * u - x| → 2 * |M * u - x| = u ∧ |j * u - M * u| = u) := by
  have hone : (1 : ℚ) ≤ |(j : ℚ) - M| := by exact_mod_cast Int.one_le_abs (sub_ne_zero.mpr hj)
  have hgap : u ≤ |j * u - M * u| := by
    rw [← sub_mul, abs_mul, abs_of_nonneg hu]
    exact le_mul_of_one_le_left hu hone
  have htri : |j * u - M * u| ≤ |j * u - x| + |M * u - x| := by
    rw [abs_sub_comm (M * u) x]
    exact abs_sub_le _ _ _
  exact ⟨by linarith, fun he => ⟨by linarith, by linarith⟩⟩

/-- The number of the magnitude b on the side of x, when x is no smaller. -/
theorem abs_sign_mul_sub_of_le {x b : Rat} (hx : x ≠ 0) (hb : b ≤ |x|) : |x.num.sign * b - x| = |x| - b := by
  rcases lt_or_gt_of_ne hx with hneg | hpos
  · rw [abs_of_neg hneg] at hb ⊢
    rw [Int.sign_eq_neg_one_of_neg (Rat.num_neg.mpr hneg), abs_of_nonneg (by push_cast; linarith)]
    push_cast
    ring
  · rw [abs_of_pos hpos] at hb ⊢
    rw [Int.sign_eq_one_of_pos (Rat.num_pos.mpr hpos), abs_of_nonpos (by push_cast; linarith)]
    push_cast
    ring

/-- A multiple of a coarser power of two is one of a finer: `scale_down` for integers. -/
theorem exists_multiple_of_le (m : ℤ) {q q' : ℤ} (h : q ≤ q') : ∃ j : ℤ, (m : Rat) * 2 ^ q' = j * 2 ^ q := by
  refine ⟨m * 2 ^ (q' - q).toNat, ?_⟩
  push_cast
  rw [mul_assoc, ← zpow_natCast (2 : ℚ) (q' - q).toNat, ← zpow_add₀ two_ne_zero, Int.toNat_of_nonneg (by omega),
    sub_add_cancel]

variable (f : TimerFormat) (x : Rat)

/-- `significand_spec` with the sign of x: a rounded number is a multiple of the spacing at most a half of it away, and at a
tie an even one. -/
theorem TimerFormat.round_eq_multiple : ∃ M : ℤ, f.round x = M * 2 ^ f.spacingAt x ∧
    2 * |f.round x - x| ≤ 2 ^ f.spacingAt x ∧ (2 * |f.round x - x| = 2 ^ f.spacingAt x → Even M) := by
  obtain ⟨hle, hge, htie⟩ := f.significand_spec x
  refine ⟨x.num.sign * f.significand x, by rw [f.round_eq]; push_cast; ring, ?_, fun h => ?_⟩
  · have hhalf : |f.round x - x| ≤ 2 ^ f.spacingAt x / 2 := by
      rw [f.abs_round_sub, abs_le]
      constructor <;> linarith
    linarith
  · refine Even.mul_left ((Int.even_coe_nat _).mpr (Nat.even_iff.mpr (htie ?_))) _
    rw [f.abs_round_sub] at h
    rcases abs_cases ((f.significand x : ℚ) * 2 ^ f.spacingAt x - |x|) with ⟨e, -⟩ | ⟨e, -⟩ <;> rw [e] at h
    · exact .inr (by linarith)
    · exact .inl (by linarith)

variable {f x} {y : Rat}

/-- No multiple of the spacing around x is nearer to x than its rounding. -/
theorem TimerFormat.abs_round_sub_le (j : ℤ) : |f.round x - x| ≤ |j * 2 ^ f.spacingAt x - x| := by
  obtain ⟨M, hM, hle, -⟩ := f.round_eq_multiple x
  by_cases hj : j = M
  · rw [hM, hj]
  · rw [hM] at hle ⊢
    exact (nearest_multiple (by positivity) hle hj).1

/-- At a tie with another multiple of the spacing, the rounding is the even one. -/
theorem TimerFormat.round_even_of_tie {j : ℤ} (htie : |j * 2 ^ f.spacingAt x - x| = |f.round x - x|)
    (hne : j * 2 ^ f.spacingAt x ≠ f.round x) :
    ∃ m : ℤ, f.round x = 2 * (m : Rat) * (j * 2 ^ f.spacingAt x - f.round x) := by
  obtain ⟨M, hM, hle, heven⟩ := f.round_eq_multiple x
  have hj : j ≠ M := by rintro rfl; exact hne hM.symm
  rw [hM] at hle htie heven ⊢
  obtain ⟨hhalf, hgap⟩ := (nearest_multiple (by positivity) hle hj).2 htie
  obtain ⟨k, rfl⟩ := heven hhalf
  rcases eq_or_eq_neg_of_abs_eq hgap with e | e
  · exact ⟨k, by rw [e]; push_cast; ring⟩
  · exact ⟨-k, by rw [e]; push_cast; ring⟩

/-- Above the least spacing, the spacing says how large x is at least. -/
theorem TimerFormat.two_zpow_le_abs (hx : x ≠ 0) (h : f.minExp - f.precision + 1 < f.spacingAt x) :
    2 ^ (f.spacingAt x + f.precision - 1) ≤ |x| := by
  have hlog := (floorLog2_spec (Int.natAbs_pos.mpr (Rat.num_ne_zero.mpr hx)) x.den_pos).1
  rw [← abs_eq_natAbs_div] at hlog
  refine le_trans (zpow_le_zpow_right₀ one_le_two ?_) hlog
  unfold TimerFormat.spacingAt TimerFormat.spacing at h ⊢
  omega

/-- A number of the format is a multiple of the spacing around x, or it is farther from x than the rounding is: it is then
below a power of two that is such a multiple and is no greater than x. -/
theorem TimerFormat.multiple_or_farther (hx : x ≠ 0) (hy : f.Representable y) :
    (∃ j : ℤ, y = j * 2 ^ f.spacingAt x) ∨ |f.round x - x| < |y - x| := by
  obtain ⟨m, q, hm, hq, rfl⟩ := hy
  rcases le_or_gt (f.spacingAt x) q with hle | hlt
  · exact .inl (exists_multiple_of_le m hle)
  · right
    have hone := f.one_le_precision
    have hlow := TimerFormat.two_zpow_le_abs (f := f) hx (by omega)
    obtain ⟨j, hj⟩ := exists_multiple_of_le x.num.sign
      (show f.spacingAt x ≤ f.spacingAt x + f.precision - 1 by omega)
    have hnear := TimerFormat.abs_round_sub_le (f := f) (x := x) j
    rw [← hj, abs_sign_mul_sub_of_le hx hlow] at hnear
    have hsmall : |(m : ℚ) * 2 ^ q| < 2 ^ (f.spacingAt x + f.precision - 1) := calc
      |(m : ℚ) * 2 ^ q| = |(m : ℚ)| * 2 ^ q := by rw [abs_mul, abs_of_pos (a := (2 : ℚ) ^ q) (by positivity)]
      _ < 2 ^ f.precision * 2 ^ q := by gcongr; exact_mod_cast hm
      _ = 2 ^ (f.precision + q : ℤ) := by rw [zpow_add₀ two_ne_zero, zpow_natCast]
      _ ≤ _ := zpow_le_zpow_right₀ one_le_two (by omega)
    have htri := abs_sub_abs_le_abs_sub x (m * 2 ^ q)
    rw [abs_sub_comm] at htri
    linarith

/-- Settles O46: among the multiples of the spacing the rounding is nearest, and the other numbers of the format are farther. -/
theorem roundingIsToNearest : Obligations.RoundingIsToNearest := by
  unfold Obligations.RoundingIsToNearest
  refine fun f x => ⟨f.round_representable x, fun y hy => ?_⟩
  by_cases hx : x = 0
  · subst hx
    simp
  rcases TimerFormat.multiple_or_farther hx hy with ⟨j, rfl⟩ | hfar
  · exact ⟨TimerFormat.abs_round_sub_le j, TimerFormat.round_even_of_tie⟩
  · exact ⟨hfar.le, fun h => absurd h hfar.ne'⟩

/-! ### timer_delta and the decay (R210, R211) -/

/-- Settles O44: the three roundings of R210, evaluated in each format. -/
theorem nominalTimerDelta : Obligations.NominalTimerDelta := by
  unfold Obligations.NominalTimerDelta
  decide

/-- Settles O45: the subtraction before the rounding is exact. -/
theorem decayOfOneTimer : Obligations.DecayOfOneTimer := by
  unfold Obligations.DecayOfOneTimer
  refine fun p t => ⟨fun ht => ?_, fun ht => if_neg ht.not_gt⟩
  rw [Params.decay, if_pos ht, TimerFormat.sub, exactSub_eq]

end Sys2Proof

namespace Sys2Proof.Machine

variable {s : State}

/-! ### The host's side: sound, load, key events (R212, R215, R241) -/

/-- Settles O47: the output is the decision of ST > 0. -/
theorem soundOutput : Obligations.SoundOutput := by
  unfold Obligations.SoundOutput
  exact fun s => decide_eq_true_iff

/-- Settles O57: `load` looks at the configuration first, then at the length of the ROM. -/
theorem loadRefusals : Obligations.LoadRefusals := by
  unfold Obligations.LoadRefusals
  exact fun s rom => ⟨fun hp => if_pos hp, fun hp hr => (if_neg (not_not.mpr hp)).trans (if_pos hr)⟩

theorem State.press_of_mem {k : Nibble} (h : k ∈ s.keys) : s.press k = s := by
  rw [State.press, if_pos h]

theorem State.press_of_not_mem {k : Nibble} (h : k ∉ s.keys) : s.press k = { s with keys := s.keys ++ [k] } := by
  rw [State.press, if_neg h]

theorem State.release_of_not_mem {k : Nibble} (h : k ∉ s.keys) : s.release k = s := by
  rw [State.release, List.erase_of_not_mem h]

theorem State.release_of_append_cons {k : Nibble} {before after : List Nibble} (hk : k ∉ before)
    (h : s.keys = before ++ k :: after) : s.release k = { s with keys := before ++ after } := by
  rw [State.release, h, List.erase_append_right _ hk, List.erase_cons_head]

theorem keyDown_of_lt {k : Nat} (hk : k < 16) : keyDown k s = .next (s.press (BitVec.ofNat 4 k)) := if_pos hk

theorem keyUp_of_lt {k : Nat} (hk : k < 16) : keyUp k s = .next (s.release (BitVec.ofNat 4 k)) := if_pos hk

/-- Settles O58: a code below 16 is a press or a release, and neither changes more than the keys. -/
theorem keyEvents : Obligations.KeyEvents := by
  unfold Obligations.KeyEvents
  refine fun s k => ⟨fun hk => ⟨if_neg hk.not_gt, if_neg hk.not_gt⟩, fun hk => ?_⟩
  rw [keyDown_of_lt hk, keyUp_of_lt hk]
  exact ⟨fun h => congrArg _ (State.press_of_mem h),
    fun h => ⟨congrArg _ (State.press_of_not_mem h), congrArg _ (State.release_of_not_mem h)⟩,
    fun before after hb h => congrArg _ (State.release_of_append_cons hb h)⟩

/-! ### The scheduler (R220 to R226) -/

/-- The acknowledge lowers redraw, which is down already when there is nothing to render (R220, R221). -/
theorem afterCycle_eq (s : State) : afterCycle s = ({ s with redraw := false },
    ⟨if s.redraw then some ((List.range 2048).map s.screen.getLsbD) else none, decide (0 < s.soundTimer)⟩) := by
  refine Prod.ext ?_ rfl
  cases h : s.redraw with
  | true => exact if_pos h
  | false => exact (if_neg (by simp [State.needsRedraw, h])).trans (by rw [← h])

theorem Scheduler.tick_of_next {c : Scheduler} (hp : c.phase ≠ .unloaded) (hs : step c.machine = .next s) :
    c.tick = .next ({ c with machine := (afterCycle s).1 }, (afterCycle s).2) := by
  simp [Scheduler.tick, hp, hs]

/-- Settles O59: what a loaded scheduler does after its cycle is `afterCycle`. -/
theorem schedulerTick : Obligations.SchedulerTick := by
  unfold Obligations.SchedulerTick
  refine fun c s hs => ⟨fun hp => if_pos (beq_iff_eq.mpr hp), fun hp => ?_⟩
  rw [Scheduler.tick_of_next hp hs, afterCycle_eq]

end Sys2Proof.Machine
end
